-- ==== Sys2Proof/Word.lean ====
section
/-!
DEFINITION. The widths of the block (00_scope.md R8): a host address and a host data byte are 8 bits, a symbol is
5 bits. Multi-byte registers are bit vectors of their own width.
-/

namespace Sys2Proof

/-- The unit of every host access, of both buffers and of the command register (R8, R61). -/
abbrev Byte := BitVec 8

/-- A host address: 256 byte addresses, 0x00 to 0xFF (R60). -/
abbrev Addr := BitVec 8

/-- A symbol value, the index of a character in the encode table (R8, R14). -/
abbrev Symbol := BitVec 5

end Sys2Proof
end

