-- ==== Sys2Proof/Kind.lean ====
section
/-!
DEFINITION. The operand kinds (30_encoding.md R82): the host value type a command byte states for its operand.
-/

namespace Sys2Proof

/-- KIND (R82). The three codes 5–7 name no kind and make a byte illegal (R84). -/
inductive Kind where
  /-- The operand is the host's null. -/
  | null
  /-- The operand is an integer, in IN_INT. -/
  | integer
  /-- Any other host value type; it never matches. -/
  | other
  /-- The operand is a text, in IN_BUF with IN_LEN. -/
  | text
  /-- The operand is a binary byte sequence, in IN_BUF with IN_LEN. -/
  | blob
deriving DecidableEq, Repr

/-- The suffix a command's kind is written with (R82, R85). -/
def Kind.suffix : Kind → String
  | .null => ".null"
  | .integer => ".int"
  | .other => ".other"
  | .text => ".text"
  | .blob => ".blob"

end Sys2Proof
end

