-- ==== Sys2Proof/Syntax.lean ====
section
/-!
DEFINITION. The commands of the block: one constructor per row of spec/opcode_table.json (30_encoding.md R81),
with the row's one field, KIND.
-/

namespace Sys2Proof

/-- A legal command (R84): an operation and the stated kind of its operand. No command has an immediate (R83). -/
inductive Instr where
  /-- PACK: big-endian timestamp pack (42_timestamp_codec.md R143). -/
  | pack (kind : Kind)
  /-- UNPACK: big-endian timestamp unpack (42_timestamp_codec.md R144). -/
  | unpack (kind : Kind)
  /-- ENCODE: Base32 encode of a 16-byte binary ULID (43_encoder.md R163). -/
  | encode (kind : Kind)
  /-- DECODE: Base32 decode of a 26-character text ULID (44_decoder.md R185). -/
  | decode (kind : Kind)
  /-- EXTRACT: the timestamp of a 16-byte binary ULID (45_timestamp_extractor.md R200). -/
  | extract (kind : Kind)
deriving DecidableEq, Repr

/-- The KIND field of a command. -/
def Instr.kind : Instr → Kind
  | .pack k => k
  | .unpack k => k
  | .encode k => k
  | .decode k => k
  | .extract k => k

/-- The mnemonic of the row (R81). -/
def Instr.mnemonic : Instr → String
  | .pack _ => "PACK"
  | .unpack _ => "UNPACK"
  | .encode _ => "ENCODE"
  | .decode _ => "DECODE"
  | .extract _ => "EXTRACT"

/-- How a command is written: `MNEMONIC.kind` (R85). -/
def Instr.asm (i : Instr) : String := i.mnemonic ++ i.kind.suffix

end Sys2Proof
end

