-- ==== Sys2Proof/HostSyntax.lean ====
section
/-!
DEFINITION. The lines of a host program (30_encoding.md R85, R86): bus operations, commands and pseudo-instructions.
What each line expands to stands in Sys2Proof/Machine/Pseudo.lean; which lines are admitted, in WellFormed.lean.
-/

namespace Sys2Proof

/-- One line of a host program (R85, R86). -/
inductive HostLine where
  /-- `WR a, v` -/
  | wr (a : Addr) (v : Byte)
  /-- `RD a` -/
  | rd (a : Addr)
  /-- `MNEMONIC.kind` -/
  | cmd (i : Instr)
  /-- `.byte 0xNN`: an illegal command byte -/
  | rawByte (c : Byte)
  /-- `WRLEN n` -/
  | wrLen (n : BitVec 32)
  /-- `WRINT x` -/
  | wrInt (x : BitVec 64)
  /-- `WRBUF b0, …` -/
  | wrBuf (bs : List Byte)
  /-- `RDBUF n` -/
  | rdBuf (n : Nat)
  /-- `RDINT` -/
  | rdInt
  /-- `RDST` -/
  | rdSt
  /-- `OPERAND.blob b` -/
  | operandBlob (bs : List Byte)
  /-- `OPERAND.text s`, the text given as its bytes -/
  | operandText (bs : List Byte)
deriving DecidableEq, Repr

end Sys2Proof
end

