-- ==== Sys2Proof/WellFormed.lean ====
section
/-!
DEFINITION. What is admitted: the legal command bytes (30_encoding.md R84), the commands, and the lines of a host
program with the bounds R85 and R86 put on them.
-/

namespace Sys2Proof

/-- R84, in its own words: a byte is legal exactly when bit 7 is 0, the low four bits are 1 to 5, and bits 6:4 are
at most 4. The decoder of Decode.lean is written apart from it. -/
def legalByte (c : Byte) : Bool :=
  let op := c.toNat % 16
  let kind := c.toNat / 16 % 8
  decide (c.toNat < 128) && decide (1 ≤ op) && decide (op ≤ 5) && decide (kind ≤ 4)

/-- Every command is well-formed: the 25 terms of Instr are the 25 legal bytes, and Kind has no reserved code. -/
def Instr.wf : Instr → Bool
  | .pack _ => true
  | .unpack _ => true
  | .encode _ => true
  | .decode _ => true
  | .extract _ => true

/-- The bounds of R85 and R86: `.byte` writes an illegal byte; WRBUF, RDBUF and OPERAND reach at most 26 bytes. -/
def HostLine.wf : HostLine → Bool
  | .wr _ _ => true
  | .rd _ => true
  | .cmd i => i.wf
  | .rawByte c => !legalByte c
  | .wrLen _ => true
  | .wrInt _ => true
  | .wrBuf bs => decide (bs.length ≤ 26)
  | .rdBuf n => decide (n ≤ 26)
  | .rdInt => true
  | .rdSt => true
  | .operandBlob bs => decide (bs.length ≤ 26)
  | .operandText bs => decide (bs.length ≤ 26)

end Sys2Proof
end

