-- ==== Sys2Proof/Decode.lean ====
section
/-!
DEFINITION. The command byte `RKKKOOOO` (30_encoding.md R80): the decoder, total on every byte and rejecting by
name, and after it the encoder, from the field values of R81 and R82. Every command is one byte long (R80).
-/

namespace Sys2Proof

/-- Why a byte is no command (R84, R215). Each reason gives ERROR with class ILLEGAL_COMMAND in the block. -/
inductive DecodeError where
  /-- Bit 7, RSV, is 1. -/
  | reservedBitSet
  /-- OP is 0 or in 6–15. -/
  | illegalOp
  /-- KIND is in 5–7. -/
  | illegalKind
deriving DecidableEq, Repr

/-- RSV, bit 7 (R80). -/
def rsvField (c : Byte) : BitVec 1 := c.extractLsb' 7 1

/-- KIND, bits 6:4 (R80). -/
def kindField (c : Byte) : BitVec 3 := c.extractLsb' 4 3

/-- OP, bits 3:0 (R80). -/
def opField (c : Byte) : BitVec 4 := c.extractLsb' 0 4

/-- The kind a KIND code names (R82). -/
def kindOfCode (k : BitVec 3) : Except DecodeError Kind :=
  match k.toNat with
  | 0 => .ok .null
  | 1 => .ok .integer
  | 2 => .ok .other
  | 3 => .ok .text
  | 4 => .ok .blob
  | _ => .error .illegalKind

/-- The operation an OP code names (R81), as a command that still lacks its kind. -/
def opOfCode (op : BitVec 4) : Except DecodeError (Kind → Instr) :=
  match op.toNat with
  | 1 => .ok .pack
  | 2 => .ok .unpack
  | 3 => .ok .encode
  | 4 => .ok .decode
  | 5 => .ok .extract
  | _ => .error .illegalOp

/-- The command a byte stands for (R80–R84). -/
def decode (c : Byte) : Except DecodeError Instr :=
  if rsvField c = 1#1 then .error .reservedBitSet
  else
    match opOfCode (opField c), kindOfCode (kindField c) with
    | .ok mk, .ok k => .ok (mk k)
    | .error e, _ => .error e
    | .ok _, .error e => .error e

/-- The KIND code of a kind (R82). -/
def kindCode : Kind → BitVec 3
  | .null => 0#3
  | .integer => 1#3
  | .other => 2#3
  | .text => 3#3
  | .blob => 4#3

/-- The OP code of a command (R81). -/
def opCode : Instr → BitVec 4
  | .pack _ => 0x1#4
  | .unpack _ => 0x2#4
  | .encode _ => 0x3#4
  | .decode _ => 0x4#4
  | .extract _ => 0x5#4

/-- `command = (RSV << 7) | (KIND << 4) | OP`, with RSV 0 (R80). -/
def encode (i : Instr) : Byte :=
  0#1 ++ kindCode i.kind ++ opCode i

/-- What the decoder reads from an instruction of the opcode table, bit 0 of `w` being bit 0 of the command byte.
Every row of the table is one byte; a longer or shorter word is none (DESIGN CHOICE, notes/assumptions/8.md). -/
def decodeTableWord (nbits w : Nat) : Option Instr :=
  if nbits = 8 ∧ w < 256 then
    match decode (BitVec.ofNat 8 w) with
    | .ok i => some i
    | .error _ => none
  else none

end Sys2Proof
end

