-- ==== Sys2Proof/Machine/Bits.lean ====
section
/-!
DEFINITION. Byte sequences and bit slices (00_scope.md R10, R11): the big-endian value of a sequence of digits, and
the bytes of a multi-byte register, whose byte at the lowest address is the most significant (20_memory.md R62).
-/

namespace Sys2Proof.Machine

/-- The value of a sequence of base-`b` digits, the first the most significant: Σ d[i] · b^(n-1-i). -/
def digitsValue (b : Nat) (ds : List Nat) : Nat := ds.foldl (fun acc d => acc * b + d) 0

/-- `BE(b[0..n))` (R11): byte 0 is the most significant byte. -/
def bigEndian (bs : List Byte) : Nat := digitsValue 256 (bs.map BitVec.toNat)

/-- Byte `i` of a register of `w` bits laid out big-endian (R62): bits `w-1-8i` down to `w-8-8i`. -/
def regByte {w : Nat} (v : BitVec w) (i : Nat) : Byte := v.extractLsb' (w - 8 - 8 * i) 8

/-- The register with byte `i` replaced (R62, R67): the other bytes keep their bits. -/
def setRegByte {w : Nat} (v : BitVec w) (i : Nat) (b : Byte) : BitVec w :=
  (v &&& ~~~((0xFF#8).setWidth w <<< (w - 8 - 8 * i))) ||| (b.setWidth w <<< (w - 8 - 8 * i))

/-- `b[0..n)` of a buffer (R11), for n at most 26. -/
def firstBytes (n : Nat) (hn : n ≤ 26) (buf : Vector Byte 26) : Vector Byte n :=
  Vector.ofFn fun i => buf[i.val]'(Nat.lt_of_lt_of_le i.isLt hn)

end Sys2Proof.Machine
end

