-- ==== Sys2Proof/Config.lean ====
section
/-!
DEFINITION. The two build parameters of the block (00_scope.md R9). A model takes both as arguments: every
definition that depends on one takes a `Params`, and a machine state carries the pair it was built with
(notes/assumptions/4.md). No free value is needed: the spec leaves no result undefined.
-/

namespace Sys2Proof.Config

/-- P_FOLD_O and P_STRICT_FIRST (R9): fixed when the block is built; no register reads or writes them. -/
structure Params where
  /-- P_FOLD_O: the decoder folds `O`/`o` to symbol value 0 (R125). -/
  pFoldO : Bool
  /-- P_STRICT_FIRST: the decoder rejects a first symbol value above 7 (R183). -/
  pStrictFirst : Bool
deriving DecidableEq, Repr

/-- The spec's defaults (R9): with both false the block behaves exactly as the source describes. -/
def Params.default : Params := { pFoldO := false, pStrictFirst := false }

end Sys2Proof.Config
end

