-- ==== Sys2Proof/Machine/Tables.lean ====
section
/-!
DEFINITION. The two ROMs of the block (41_alphabet_tables.md): ENC_TABLE (R120) and DEC_TABLE (R122). Neither is
state: no command, write or reset changes them (R129), so they are constants and not fields of State.
-/

namespace Sys2Proof.Machine

/-- ENC_TABLE (R120): the characters of `0123456789ABCDEFGHJKMNPQRSTVWXYZ`, character v at index v. -/
def encTable : Vector Byte 32 :=
  #v[0x30#8, 0x31#8, 0x32#8, 0x33#8, 0x34#8, 0x35#8, 0x36#8, 0x37#8,
     0x38#8, 0x39#8, 0x41#8, 0x42#8, 0x43#8, 0x44#8, 0x45#8, 0x46#8,
     0x47#8, 0x48#8, 0x4A#8, 0x4B#8, 0x4D#8, 0x4E#8, 0x50#8, 0x51#8,
     0x52#8, 0x53#8, 0x54#8, 0x56#8, 0x57#8, 0x58#8, 0x59#8, 0x5A#8]

/-- The character of a symbol value. -/
def encChar (v : Symbol) : Byte := encTable[v.toNat]'v.isLt

/-- The symbol values whose character is upper-case alphabet byte `b`: at most one (R120: distinct characters). -/
def alphabetIndex (b : Byte) : Option Symbol :=
  ((List.finRange 32).find? fun v => encTable[v.val] == b).map (fun v => BitVec.ofNat 5 v.val)

/-- The symbol value v ≥ 10 whose lower-case letter, ENC_TABLE[v] + 0x20, is `b` (R122). -/
def lowerIndex (b : Byte) : Option Symbol :=
  ((List.finRange 32).find? fun v => decide (10 ≤ v.val) && (encTable[v.val] + 0x20#8 == b)).map
    (fun v => BitVec.ofNat 5 v.val)

/-- DEC_TABLE (R122), INVALID being `none`: the alphabet bytes, their lower-case letters, the folded glyphs I, i, L
and l (R124), O and o under P_FOLD_O (R125), and INVALID for every other byte (R126, R127). -/
def decTable (p : Config.Params) (b : Byte) : Option Symbol :=
  match alphabetIndex b with
  | some v => some v
  | none =>
    match lowerIndex b with
    | some v => some v
    | none =>
      if b = 0x49#8 ∨ b = 0x69#8 ∨ b = 0x4C#8 ∨ b = 0x6C#8 then some 1#5
      else if (b = 0x4F#8 ∨ b = 0x6F#8) ∧ p.pFoldO = true then some 0#5
      else none

end Sys2Proof.Machine
end

