-- ==== Sys2Proof/Machine/Codec.lean ====
section
/-!
DEFINITION. The four pure functions of the codec, the normative core of the spec (00_scope.md R6): pack48 and
unpack48 (42_timestamp_codec.md R141, R142), encode26 (43_encoder.md R160, R161), decode26 (44_decoder.md R180–R184).
-/

namespace Sys2Proof.Machine

/-- `pack48(x)` (R141): byte i is `x[47-8i : 40-8i]`; bits 63:48 are discarded (R140). -/
def pack48 (x : BitVec 64) : Vector Byte 6 :=
  Vector.ofFn fun i => x.extractLsb' (40 - 8 * i.val) 8

/-- `unpack48(b)` (R142): the big-endian value of the six bytes, zero-extended to 64 bits. -/
def unpack48 (b : Vector Byte 6) : BitVec 64 :=
  (BitVec.ofNat 48 (bigEndian b.toList)).setWidth 64

/-- `W` of R160: the 128-bit big-endian value of the 16 bytes, zero-extended to 130 bits, so that the two pad bits
are the most significant two (90_conflicts.md C1). -/
def encodeStream (b : Vector Byte 16) : BitVec 130 :=
  (BitVec.ofNat 128 (bigEndian b.toList)).setWidth 130

/-- `group(k) = W[129-5k : 125-5k]` (R160). -/
def group (w : BitVec 130) (k : Nat) : Symbol := w.extractLsb' (125 - 5 * k) 5

/-- `encode26(B)` (R161): character k is ENC_TABLE[group(k)]. -/
def encode26 (b : Vector Byte 16) : Vector Byte 26 :=
  Vector.ofFn fun k => encChar (group (encodeStream b) k.val)

/-- The symbols of a text (R180), if none is INVALID (R182). -/
def symbols (p : Config.Params) (s : Vector Byte 26) : Option (Vector Symbol 26) :=
  if h : ∀ k : Fin 26, (decTable p s[k.val]).isSome = true then
    some (Vector.ofFn fun k => (decTable p s[k.val]).get (h k))
  else none

/-- `W` of R181: Σ v[k] · 2^(5·(25-k)), 130 bits. -/
def decodeStream (v : Vector Symbol 26) : BitVec 130 :=
  BitVec.ofNat 130 (digitsValue 32 (v.toList.map BitVec.toNat))

/-- The 16 bytes of R181: `B[j] = W[127-8j : 120-8j]`; `W[129:128]` is discarded. -/
def streamBytes (w : BitVec 130) : Vector Byte 16 :=
  Vector.ofFn fun j => w.extractLsb' (120 - 8 * j.val) 8

/-- `decode26(S)` (R184): CONTENT, here `none`, when a character is INVALID (R182) or, under P_STRICT_FIRST, the
first symbol is above 7 (R183); otherwise the 16 bytes. -/
def decode26 (p : Config.Params) (s : Vector Byte 26) : Option (Vector Byte 16) :=
  match symbols p s with
  | none => none
  | some v => if p.pStrictFirst = true ∧ 7 < v[0].toNat then none else some (streamBytes (decodeStream v))

end Sys2Proof.Machine
end

