-- ==== Sys2Proof/Machine/State.lean ====
section
/-!
DEFINITION. The block's complete state (10_state.md R20), the host events that reach it (30_encoding.md R87,
70_reset_and_hazards.md R240), and the state after reset (R240, R241).
-/

namespace Sys2Proof.Machine

/-- What reaches the block from outside, one at a time (R7, R68, R87, R240). -/
inductive HostEvent where
  /-- A bus read of one byte: `MemRead(a, 1)` (R12, R87). -/
  | rd (a : Addr)
  /-- A bus write of one byte: `MemWrite(a, 1, v)` (R12, R87). -/
  | wr (a : Addr) (v : Byte)
  /-- The reset input, acting between two accesses (R240). -/
  | reset
deriving DecidableEq, Repr

/-- The registers of R20, and three fields of the model's own: the build parameters the block was made with
(notes/assumptions/4.md), the host's events not yet performed (1.md) and the read data the host has seen (3.md). -/
structure State where
  /-- LAST_CMD, address 0x00 (R22): the last byte written to 0x00 since reset. -/
  lastCmd : Byte
  /-- STATUS, address 0x01 (R23): ERR_CLASS in bits 4:2, RESULT in bits 1:0. -/
  status : Byte
  /-- OUT_LEN, address 0x02 (R26). -/
  outLen : Byte
  /-- IN_LEN, addresses 0x04–0x07 (R27). -/
  inLen : BitVec 32
  /-- IN_INT, addresses 0x08–0x0F (R28). -/
  inInt : BitVec 64
  /-- OUT_INT, addresses 0x10–0x17 (R29). -/
  outInt : BitVec 64
  /-- IN_BUF, addresses 0x20–0x39 (R30). -/
  inBuf : Vector Byte 26
  /-- OUT_BUF, addresses 0x40–0x59 (R31). -/
  outBuf : Vector Byte 26
  /-- P_FOLD_O and P_STRICT_FIRST (R9): fixed at build; no event changes them. DESIGN CHOICE that they stand here:
  step has no other argument (notes/assumptions/4.md). -/
  params : Config.Params
  /-- The host's events still to be performed, oldest first. DESIGN CHOICE, safe (notes/assumptions/1.md). -/
  pending : List HostEvent
  /-- The data bytes the block has driven on reads, oldest first. DESIGN CHOICE, safe (notes/assumptions/3.md). -/
  replies : List Byte
deriving DecidableEq, Repr

/-- Why the machine could stop with a fault. The block has no fault: "No access faults, stalls or raises anything"
(R65), "The block has no trap mechanism" (R219), and a failing command commits an error result and goes on (R213). So
no constructor, and nobody raises one: safe, since no step ever ends here. -/
inductive Fault where
deriving DecidableEq, Repr

/-- Why the model could refuse to give a step. -/
inductive Refusal where
  /-- An instruction without a meaning. The host's interface asks for the name; every instruction has its meaning, so
  no arm of exec raises it: safe. -/
  | notModelled (mnemonic : String)
deriving DecidableEq, Repr

/-- A buffer of 26 zero bytes. -/
def zeroBuf : Vector Byte 26 := Vector.replicate 26 0x00#8

/-- The state after reset, which is also the state at power-on (R240, R241): every register of R20 at its reset
value. The parameters are at the spec's defaults (R9), and no host event is pending or answered. -/
def State.reset : State where
  lastCmd := 0x00#8
  status := 0x00#8
  outLen := 0x00#8
  inLen := 0#32
  inInt := 0#64
  outInt := 0#64
  inBuf := zeroBuf
  outBuf := zeroBuf
  params := Config.Params.default
  pending := []
  replies := []

end Sys2Proof.Machine
end

