-- ==== Sys2Proof/Machine/Flags.lean ====
section
/-!
DEFINITION. The STATUS register (10_state.md R23–R25): the codes of its two fields, the byte they make, and the
fields of a byte. The only status flags of the block (R35).
-/

namespace Sys2Proof.Machine

/-- The error classes (R25, R210). RESOURCE keeps its code and no command raises it (R211; notes/assumptions/10.md). -/
inductive ErrorClass where
  | type
  | length
  | content
  | resource
  | illegalCommand
deriving DecidableEq, Repr

/-- The result kinds of STATUS.RESULT (R24). -/
inductive ResultKind where
  | none
  | value
  | null
  | error
deriving DecidableEq, Repr

/-- STATUS.ERR_CLASS of an error class (R25). Code 0 is NONE, used whenever RESULT is not ERROR. -/
def errorCode : ErrorClass → BitVec 3
  | .type => 1#3
  | .length => 2#3
  | .content => 3#3
  | .resource => 4#3
  | .illegalCommand => 5#3

/-- STATUS.RESULT of a result kind (R24). -/
def resultCode : ResultKind → BitVec 2
  | .none => 0#2
  | .value => 1#2
  | .null => 2#2
  | .error => 3#2

/-- The STATUS byte of its two fields (R23): bits 7:5 are 0, ERR_CLASS is 4:2, RESULT is 1:0. -/
def statusByte (cls : BitVec 3) (result : ResultKind) : Byte := 0#3 ++ cls ++ resultCode result

/-- RESULT, bits 1:0 of STATUS (R23). -/
def resultField (status : Byte) : BitVec 2 := status.extractLsb' 0 2

/-- ERR_CLASS, bits 4:2 of STATUS (R23). -/
def errClassField (status : Byte) : BitVec 3 := status.extractLsb' 2 3

end Sys2Proof.Machine
end

