-- ==== Sys2Proof/Machine/Ops.lean ====
section
/-!
DEFINITION. The named operations over the registers: the address map with its reads and writes (20_memory.md R65),
the commit of a command's outcome (40_command_execution.md R103, 60_exceptions.md R212, R213), raising an error, and
reset (70_reset_and_hazards.md R240). The block has no trap and no return from one (R219, R220): raising an error
is the commit of R213 and nothing else.
-/

namespace Sys2Proof.Machine

/-- What lies at a host address (R65). -/
inductive Location where
  | cmd
  | status
  | outLen
  /-- Byte i of IN_LEN, byte 0 at 0x04. -/
  | inLen (i : Fin 4)
  /-- Byte i of IN_INT, byte 0 at 0x08. -/
  | inInt (i : Fin 8)
  /-- Byte i of OUT_INT, byte 0 at 0x10. -/
  | outInt (i : Fin 8)
  /-- IN_BUF[i], at 0x20 + i. -/
  | inBuf (i : Fin 26)
  /-- OUT_BUF[i], at 0x40 + i. -/
  | outBuf (i : Fin 26)
  | reserved
deriving DecidableEq, Repr

/-- The host register map (R65); every address not listed is reserved. -/
def locate (a : Addr) : Location :=
  let n := a.toNat
  if n = 0x00 then .cmd
  else if n = 0x01 then .status
  else if n = 0x02 then .outLen
  else if h : 0x04 ≤ n ∧ n ≤ 0x07 then .inLen ⟨n - 0x04, by omega⟩
  else if h : 0x08 ≤ n ∧ n ≤ 0x0F then .inInt ⟨n - 0x08, by omega⟩
  else if h : 0x10 ≤ n ∧ n ≤ 0x17 then .outInt ⟨n - 0x10, by omega⟩
  else if h : 0x20 ≤ n ∧ n ≤ 0x39 then .inBuf ⟨n - 0x20, by omega⟩
  else if h : 0x40 ≤ n ∧ n ≤ 0x59 then .outBuf ⟨n - 0x40, by omega⟩
  else .reserved

/-- `MemRead(a, 1)`: the byte a host read returns (R62, R64, R65). A reserved address reads 0x00; nothing faults. -/
def memRead (s : State) (a : Addr) : Byte :=
  match locate a with
  | .cmd => s.lastCmd
  | .status => s.status
  | .outLen => s.outLen
  | .inLen i => regByte s.inLen i.val
  | .inInt i => regByte s.inInt i.val
  | .outInt i => regByte s.outInt i.val
  | .inBuf i => s.inBuf[i.val]
  | .outBuf i => s.outBuf[i.val]
  | .reserved => 0x00#8

/-- What a host write stores (R65, R66): the byte, at an input register; nothing, at a read-only or reserved
address. A write to 0x00 runs a command and is not handled here (Bus.lean, R100). -/
def storeByte (a : Addr) (v : Byte) (s : State) : State :=
  match locate a with
  | .cmd => s
  | .status => s
  | .outLen => s
  | .inLen i => { s with inLen := setRegByte s.inLen i.val v }
  | .inInt i => { s with inInt := setRegByte s.inInt i.val v }
  | .outInt _ => s
  | .inBuf i => { s with inBuf := s.inBuf.set i.val v }
  | .outBuf _ => s
  | .reserved => s

/-- How a command ends (R12, R214): one of a byte result, an integer result, the null result, an error. -/
inductive CommandOutcome where
  | valueBytes (bytes : List Byte)
  | valueInt (w : BitVec 64)
  | null
  | error (cls : ErrorClass)
deriving DecidableEq, Repr

/-- OUT_BUF of a byte result: `(i < n) ? b[i] : 0x00` (R103). -/
def padBuf (bytes : List Byte) : Vector Byte 26 := Vector.ofFn fun i => bytes.getD i.val 0x00#8

/-- The commit of a byte value (R103). -/
def commitBytes (bytes : List Byte) (s : State) : State :=
  { s with
    outBuf := padBuf bytes
    outLen := BitVec.ofNat 8 bytes.length
    outInt := 0#64
    status := statusByte 0#3 .value }

/-- The commit of an integer value (R103). -/
def commitInt (w : BitVec 64) (s : State) : State :=
  { s with
    outBuf := zeroBuf
    outLen := 0x00#8
    outInt := w
    status := statusByte 0#3 .value }

/-- The commit of the null result (R212). -/
def commitNull (s : State) : State :=
  { s with
    outBuf := zeroBuf
    outLen := 0x00#8
    outInt := 0#64
    status := statusByte 0#3 .null }

/-- `raise <class>`: the commit of an error result (R213). The block's only error mechanism (R219): the outputs are
cleared, STATUS records the class, LAST_CMD tells the operation (R210), and the block is ready for the next command. -/
def raiseError (cls : ErrorClass) (s : State) : State :=
  { s with
    outBuf := zeroBuf
    outLen := 0x00#8
    outInt := 0#64
    status := statusByte (errorCode cls) .error }

/-- `Commit(outcome)` (R100). No commit writes an input register (R104). -/
def commit (o : CommandOutcome) (s : State) : State :=
  match o with
  | .valueBytes bytes => commitBytes bytes s
  | .valueInt w => commitInt w s
  | .null => commitNull s
  | .error cls => raiseError cls s

/-- The reset input (R240): every register at its reset value. The build parameters are not state and stay; the
host's own events and what it has read are the host's. -/
def resetRegisters (s : State) : State :=
  { State.reset with params := s.params, pending := s.pending, replies := s.replies }

end Sys2Proof.Machine
end

