-- ==== Sys2Proof/Machine/Operands.lean ====
section
/-!
DEFINITION. The operand checks every command shares (40_command_execution.md R101, R102; 60_exceptions.md R214): the
null short-circuit, the kind check, the length check, in that order.
-/

namespace Sys2Proof.Machine

/-- The null and kind checks of R101: NULL for a null operand (R212), TYPE for a kind that is not the expected one
(R216), and otherwise the operation's own body. -/
def checkKind (expected k : Kind) (body : CommandOutcome) : CommandOutcome :=
  if k = .null then .null
  else if k = expected then body
  else .error .type

/-- The length check (R217): LENGTH when IN_LEN is not the required length, before IN_BUF is looked at (R102). -/
def checkLength (required : BitVec 32) (s : State) (body : CommandOutcome) : CommandOutcome :=
  if s.inLen = required then body else .error .length

/-- IN_BUF[0..6), the operand of UNPACK and the part of EXTRACT's operand it reads (R83). -/
def operand6 (s : State) : Vector Byte 6 := firstBytes 6 (by omega) s.inBuf

/-- IN_BUF[0..16), the operand of ENCODE (R83). -/
def operand16 (s : State) : Vector Byte 16 := firstBytes 16 (by omega) s.inBuf

end Sys2Proof.Machine
end

