-- ==== Sys2Proof/Machine/Base32.lean ====
section
/-!
DEFINITION. The Base32 commands: ENCODE (43_encoder.md R163) and DECODE (44_decoder.md R185).
-/

namespace Sys2Proof.Machine

/-- How ENCODE ends (R163): every 16-byte value encodes. -/
def encodeOutcome (k : Kind) (s : State) : CommandOutcome :=
  checkKind .blob k (checkLength 16#32 s (.valueBytes (encode26 (operand16 s)).toList))

/-- How a well-typed DECODE of the right length ends (R185): the 16 bytes, or CONTENT (R218). -/
def decodeBody (s : State) : CommandOutcome :=
  match decode26 s.params s.inBuf with
  | none => .error .content
  | some b => .valueBytes b.toList

/-- How DECODE ends (R185). -/
def decodeOutcome (k : Kind) (s : State) : CommandOutcome :=
  checkKind .text k (checkLength 26#32 s (decodeBody s))

/-- ENCODE (R163). -/
def execEncode (k : Kind) (s : State) : Host.Outcome State Fault Refusal := .next (commit (encodeOutcome k s) s)

/-- DECODE (R185). -/
def execDecode (k : Kind) (s : State) : Host.Outcome State Fault Refusal := .next (commit (decodeOutcome k s) s)

end Sys2Proof.Machine
end

