-- ==== Sys2Proof/Machine/Timestamp.lean ====
section
/-!
DEFINITION. The timestamp commands: PACK and UNPACK (42_timestamp_codec.md R143, R144) and EXTRACT
(45_timestamp_extractor.md R200).
-/

namespace Sys2Proof.Machine

/-- How PACK ends (R143): it reads IN_INT only, and has no LENGTH or CONTENT error. -/
def packOutcome (k : Kind) (s : State) : CommandOutcome :=
  checkKind .integer k (.valueBytes (pack48 s.inInt).toList)

/-- How UNPACK ends (R144). -/
def unpackOutcome (k : Kind) (s : State) : CommandOutcome :=
  checkKind .blob k (checkLength 6#32 s (.valueInt (unpack48 (operand6 s))))

/-- How EXTRACT ends (R200): the length of a whole binary ULID is required, and its first six bytes are read. -/
def extractOutcome (k : Kind) (s : State) : CommandOutcome :=
  checkKind .blob k (checkLength 16#32 s (.valueInt (unpack48 (operand6 s))))

/-- PACK (R143). -/
def execPack (k : Kind) (s : State) : Host.Outcome State Fault Refusal := .next (commit (packOutcome k s) s)

/-- UNPACK (R144). -/
def execUnpack (k : Kind) (s : State) : Host.Outcome State Fault Refusal := .next (commit (unpackOutcome k s) s)

/-- EXTRACT (R200). -/
def execExtract (k : Kind) (s : State) : Host.Outcome State Fault Refusal := .next (commit (extractOutcome k s) s)

end Sys2Proof.Machine
end

