-- ==== Sys2Proof/Machine/Dispatch.lean ====
section
/-!
DEFINITION. One arm per command: the case of 40_command_execution.md R101.
-/

namespace Sys2Proof.Machine

def exec (i : Instr) (s : State) : Host.Outcome State Fault Refusal :=
  match i with
  | .pack k => Sys2Proof.Machine.execPack k s
  | .unpack k => Sys2Proof.Machine.execUnpack k s
  | .encode k => Sys2Proof.Machine.execEncode k s
  | .decode k => Sys2Proof.Machine.execDecode k s
  | .extract k => Sys2Proof.Machine.execExtract k s

end Sys2Proof.Machine
end

