-- ==== Sys2Proof/Machine/Bus.lean ====
section
/-!
DEFINITION. What one host event does (00_scope.md R7, 20_memory.md R65–R69, 40_command_execution.md R100,
70_reset_and_hazards.md R240), and how the machine takes the next one. Everything Step.lean answers is defined here.
-/

namespace Sys2Proof.Machine

/-- `on MemWrite(0x00, 1, c)` (R100), one indivisible step: LAST_CMD takes the byte, legal or not (R22); a legal
byte runs its command; an illegal one reads no operand and raises ILLEGAL_COMMAND (R215). -/
def runCommand (c : Byte) (s : State) : Host.Outcome State Fault Refusal :=
  match decode c with
  | .ok i => exec i { s with lastCmd := c }
  | .error _ => .next (raiseError .illegalCommand { s with lastCmd := c })

/-- A host write (R66): to 0x00 it runs a command, elsewhere it stores its byte and does nothing else. -/
def hostWrite (a : Addr) (v : Byte) (s : State) : Host.Outcome State Fault Refusal :=
  if a = 0x00#8 then runCommand v s else .next (storeByte a v s)

/-- A host read (R66): the block drives the byte at the address, and no register changes. -/
def hostRead (a : Addr) (s : State) : State := { s with replies := s.replies ++ [memRead s a] }

/-- One host event, whole (R68, R69). -/
def performEvent (e : HostEvent) (s : State) : Host.Outcome State Fault Refusal :=
  match e with
  | .rd a => .next (hostRead a s)
  | .wr a v => hostWrite a v s
  | .reset => .next (resetRegisters s)

/-- The next host event is taken and performed; with none pending nothing happens, since the block takes no step of
its own (R7). DESIGN CHOICE that the model answers the same state: safe (notes/assumptions/2.md). -/
def takeEvent (s : State) : Host.Outcome State Fault Refusal :=
  match s.pending with
  | [] => .next s
  | e :: rest => performEvent e { s with pending := rest }

/-- The host write that runs the command byte `w`, put before every other pending event. A command is one byte. -/
def placeCommand (s : State) (w : Nat) : State :=
  { s with pending := .wr 0x00#8 (BitVec.ofNat 8 w) :: s.pending }

end Sys2Proof.Machine
end

