-- ==== Sys2Proof/Machine/Step.lean ====
section
/-!
DEFINITION. One step of the machine: one host event (00_scope.md R7, 20_memory.md R68).
-/

namespace Sys2Proof.Machine

/-- One step: the next pending host event is performed whole. -/
def step (s : State) : Host.Outcome State Fault Refusal := takeEvent s

/-- The state in which the very next step runs the command whose table word is `w`: the block fetches nothing
(10_state.md R21), so the command is the host's next event, a write of `w` to 0x00 (notes/assumptions/1.md). -/
def State.withFetchWord (s : State) (_nbits w : Nat) : State := placeCommand s w

end Sys2Proof.Machine
end

