-- ==== Sys2Proof/Machine/Pseudo.lean ====
section
/-!
DEFINITION. The exact expansions of the lines of a host program into bus events (30_encoding.md R85, R86), and how
a host that keeps its duties presents an operand (70_reset_and_hazards.md R245). The block cannot tell a
pseudo-instruction from its expansion.
-/

namespace Sys2Proof.Machine

/-- `MNEMONIC.kind`: the command byte written to 0x00 (R85). -/
def commandEvents (i : Instr) : List HostEvent := [.wr 0x00#8 (encode i)]

/-- `WRLEN n`: the four bytes of n, most significant first, to 0x04–0x07 (R86). -/
def wrLenEvents (n : BitVec 32) : List HostEvent :=
  (List.range 4).map fun i => .wr (BitVec.ofNat 8 (0x04 + i)) (n.extractLsb' (24 - 8 * i) 8)

/-- `WRINT x`: for i = 0..7, `WR 0x08+i, x[63-8i:56-8i]` (R86). -/
def wrIntEvents (x : BitVec 64) : List HostEvent :=
  (List.range 8).map fun i => .wr (BitVec.ofNat 8 (0x08 + i)) (x.extractLsb' (56 - 8 * i) 8)

/-- The writes of a byte sequence to consecutive addresses from `a` on. -/
def wrBytesFrom (a : Nat) : List Byte → List HostEvent
  | [] => []
  | b :: bs => .wr (BitVec.ofNat 8 a) b :: wrBytesFrom (a + 1) bs

/-- `WRBUF b0, …`: for i < k, `WR 0x20+i, bi`, k at most 26 (R86). -/
def wrBufEvents (bs : List Byte) : List HostEvent := wrBytesFrom 0x20 bs

/-- `RDBUF n`: for i < n, `RD 0x40+i`, n at most 26 (R86). -/
def rdBufEvents (n : Nat) : List HostEvent := (List.range n).map fun i => .rd (BitVec.ofNat 8 (0x40 + i))

/-- `RDINT`: for i = 0..7, `RD 0x10+i` (R86). -/
def rdIntEvents : List HostEvent := (List.range 8).map fun i => .rd (BitVec.ofNat 8 (0x10 + i))

/-- `RDST`: `RD 0x01` (R86). -/
def rdStEvents : List HostEvent := [.rd 0x01#8]

/-- `OPERAND.blob b` and `OPERAND.text s`: `WRBUF b; WRLEN len(b)` (R86). -/
def operandEvents (bs : List Byte) : List HostEvent := wrBufEvents bs ++ wrLenEvents (BitVec.ofNat 32 bs.length)

/-- The bus events of a line (R85, R86). -/
def lineEvents : HostLine → List HostEvent
  | .wr a v => [.wr a v]
  | .rd a => [.rd a]
  | .cmd i => commandEvents i
  | .rawByte c => [.wr 0x00#8 c]
  | .wrLen n => wrLenEvents n
  | .wrInt x => wrIntEvents x
  | .wrBuf bs => wrBufEvents bs
  | .rdBuf n => rdBufEvents n
  | .rdInt => rdIntEvents
  | .rdSt => rdStEvents
  | .operandBlob bs => operandEvents bs
  | .operandText bs => operandEvents bs

/-- The length a host states for an operand (R245): its length in bytes, saturated at 0xFFFFFFFF. -/
def statedLength (bs : List Byte) : BitVec 32 := BitVec.ofNat 32 (min bs.length 0xFFFFFFFF)

/-- The writes of an operand's length alone: all that R245 asks of the host for an operand longer than 26 bytes, of
which it may write the first 26 bytes or none. This is the form that writes none. -/
def presentLength (bs : List Byte) : List HostEvent := wrLenEvents (statedLength bs)

/-- How a dutiful host presents an operand of any length (R244, R245): at most its first 26 bytes, and its length.
DESIGN CHOICE (log entry 13): of an operand longer than 26 bytes R245 lets the host write the first 26 bytes or none,
and here it writes the first 26 (`presentLength` is the other form); a shorter operand is written whole, and the buffer
before the length, as in `OPERAND` of R86, where R244 gives no order. Unsafe for a claim about IN_BUF after an
operand of more than 26 bytes of which a host writes none; the command's answer is LENGTH in either form. -/
def presentOperand (bs : List Byte) : List HostEvent := wrBufEvents (bs.take 26) ++ wrLenEvents (statedLength bs)

end Sys2Proof.Machine
end

