-- ==== Sys2Proof/Safety.lean ====
section
/-!
DEFINITION. What holds of every state the block can be in, in the terms the claims use: the legal contents of the
output registers and of STATUS, and what they say of the last command. Every part is decidable.
-/

namespace Sys2Proof.Safety

open Sys2Proof.Machine

/-- The seven values STATUS is ever read as (10_state.md R23): NONE, VALUE, NULL and the four reachable errors. -/
abbrev StatusLegal (s : State) : Prop :=
  s.status = 0x00#8 ∨ s.status = 0x01#8 ∨ s.status = 0x02#8 ∨ s.status = 0x07#8 ∨ s.status = 0x0B#8 ∨
    s.status = 0x0F#8 ∨ s.status = 0x17#8

/-- OUT_LEN is 0, 6, 16 or 26, and no other value (R26). -/
abbrev OutLenLegal (s : State) : Prop :=
  s.outLen = 0#8 ∨ s.outLen = 6#8 ∨ s.outLen = 16#8 ∨ s.outLen = 26#8

/-- Every byte of OUT_BUF at or above OUT_LEN is 0x00 (R26, R31). -/
abbrev OutBufPadded (s : State) : Prop :=
  ∀ i : Fin 26, s.outLen.toNat ≤ i.val → s.outBuf[i.val] = 0x00#8

/-- OUT_INT bits 63:48 are zero (R29). -/
abbrev OutIntNarrow (s : State) : Prop := s.outInt.toNat < 2 ^ 48

/-- Without a VALUE every output reads zero, and a byte result leaves OUT_INT zero (R29, R103, R212, R213, R242). -/
abbrev OneResult (s : State) : Prop :=
  (s.status ≠ 0x01#8 → s.outLen = 0#8 ∧ s.outInt = 0#64) ∧ (s.outLen ≠ 0#8 → s.outInt = 0#64)

/-- LAST_CMD and STATUS agree on the last command (R22, R210, R212, R214, R215, R242): NONE only before any command,
ILLEGAL_COMMAND exactly after an illegal byte, NULL exactly after a legal byte of kind NULL, each other result only
after a byte that can give it, and each OUT_LEN only after its operation's value. -/
abbrev StatusTellsLastCommand (s : State) : Prop :=
  (s.status = 0x00#8 → s.lastCmd = 0x00#8) ∧
  (s.status ≠ 0x00#8 →
    (s.status = 0x17#8 ↔ legalByte s.lastCmd = false) ∧
    (s.status = 0x02#8 ↔ legalByte s.lastCmd = true ∧ kindField s.lastCmd = 0#3)) ∧
  (s.status = 0x0F#8 → s.lastCmd = 0x34#8) ∧
  (s.status = 0x0B#8 → s.lastCmd = 0x42#8 ∨ s.lastCmd = 0x43#8 ∨ s.lastCmd = 0x34#8 ∨ s.lastCmd = 0x45#8) ∧
  (s.status = 0x01#8 → s.lastCmd = 0x11#8 ∨ s.lastCmd = 0x42#8 ∨ s.lastCmd = 0x43#8 ∨ s.lastCmd = 0x34#8 ∨
    s.lastCmd = 0x45#8) ∧
  (s.outLen = 6#8 ↔ s.status = 0x01#8 ∧ s.lastCmd = 0x11#8) ∧
  (s.outLen = 26#8 ↔ s.status = 0x01#8 ∧ s.lastCmd = 0x43#8) ∧
  (s.outLen = 16#8 ↔ s.status = 0x01#8 ∧ s.lastCmd = 0x34#8)

/-- A 26-byte result is a canonical text: every character is of the alphabet, and the first is `'0'` to `'7'`
(41_alphabet_tables.md R121; 43_encoder.md R164). -/
abbrev TextCanonical (s : State) : Prop :=
  s.outLen = 26#8 →
    (∀ i : Fin 26, s.outBuf[i.val] ∈ encTable.toList) ∧ 0x30 ≤ s.outBuf[0].toNat ∧ s.outBuf[0].toNat ≤ 0x37

/-- The invariant of the block: true after reset and kept by every host event. -/
structure BlockInv (s : State) : Prop where
  statusLegal : StatusLegal s
  outLenLegal : OutLenLegal s
  outBufPadded : OutBufPadded s
  outIntNarrow : OutIntNarrow s
  oneResult : OneResult s
  statusTellsLastCommand : StatusTellsLastCommand s
  textCanonical : TextCanonical s

/-- A write to 0x00, the one event that runs a command (20_memory.md R66). -/
abbrev isCommand (e : HostEvent) : Bool :=
  match e with
  | .wr a _ => a == 0x00#8
  | .rd _ => false
  | .reset => false

end Sys2Proof.Safety
end

