-- ==== Sys2Proof/Certificates/Slice0/Obligations.lean ====
section
/-!
DEFINITION. The statements for the provers. Each docstring names the rule of spec/ it formalises. The spec marks the
register wrapper's rules as its own decisions (92_eei_decisions.md) and the laws of the functions as derived; both are
rules of the spec here (notes/assumptions/9.md).
-/

namespace Sys2Proof.Claims

open Sys2Proof.Machine

/-! ### The words of the spec that the statements are written with -/

/-- A state whose output registers and STATUS are given and whose every other field is that of `s`: what a command
may write (R103, R212, R213), and so the frame of every command. -/
abbrev withOutputs (s : State) (outBuf : Vector Byte 26) (outLen : Byte) (outInt : BitVec 64) (status : Byte) : State :=
  { s with outBuf := outBuf, outLen := outLen, outInt := outInt, status := status }

/-- All 26 bytes zero. -/
abbrev clearBuf : Vector Byte 26 := Vector.replicate 26 0x00#8

/-- The state a command leaves when it gives no value: outputs cleared, STATUS as given (R212, R213). -/
abbrev cleared (s : State) (status : Byte) : State := withOutputs s clearBuf 0#8 0#64 status

/-- The state in which the host's write of `c` to 0x00 is under way: the event is taken and LAST_CMD holds `c`
(R22, R100). -/
abbrev taking (s : State) (c : Byte) (rest : List HostEvent) : State := { s with lastCmd := c, pending := rest }

/-- The kind each operation expects (R83). -/
def expectedKind : Instr → Kind
  | .pack _ => .integer
  | .unpack _ => .blob
  | .encode _ => .blob
  | .decode _ => .text
  | .extract _ => .blob

/-- The IN_LEN each operation requires; PACK reads none (R83, R217). -/
def requiredLength : Instr → Option Nat
  | .pack _ => none
  | .unpack _ => some 6
  | .encode _ => some 16
  | .decode _ => some 26
  | .extract _ => some 16

/-- The addresses the host may write with an effect on a register: IN_LEN, IN_INT, IN_BUF (R65). -/
def writable (a : Addr) : Bool := decide (0x04 ≤ a.toNat ∧ a.toNat ≤ 0x0F) || decide (0x20 ≤ a.toNat ∧ a.toNat ≤ 0x39)

/-- The read-only addresses: STATUS, OUT_LEN, OUT_INT, OUT_BUF (R65). -/
def readOnly (a : Addr) : Bool :=
  decide (0x01 ≤ a.toNat ∧ a.toNat ≤ 0x02) || decide (0x10 ≤ a.toNat ∧ a.toNat ≤ 0x17) ||
    decide (0x40 ≤ a.toNat ∧ a.toNat ≤ 0x59)

/-- The reserved addresses (R65). -/
def reservedAddr (a : Addr) : Bool :=
  decide (a.toNat = 0x03) || decide (0x18 ≤ a.toNat ∧ a.toNat ≤ 0x1F) || decide (0x3A ≤ a.toNat ∧ a.toNat ≤ 0x3F) ||
    decide (0x5A ≤ a.toNat)

/-- The 26 rows of R162, for `b j` the j-th of the 16 bytes. -/
def encodeGroups (b : Nat → Nat) : List Nat :=
  [(b 0 &&& 0xE0) >>> 5,
   b 0 &&& 0x1F,
   (b 1 &&& 0xF8) >>> 3,
   ((b 1 &&& 0x07) <<< 2) ||| ((b 2 &&& 0xC0) >>> 6),
   (b 2 &&& 0x3E) >>> 1,
   ((b 2 &&& 0x01) <<< 4) ||| ((b 3 &&& 0xF0) >>> 4),
   ((b 3 &&& 0x0F) <<< 1) ||| ((b 4 &&& 0x80) >>> 7),
   (b 4 &&& 0x7C) >>> 2,
   ((b 4 &&& 0x03) <<< 3) ||| ((b 5 &&& 0xE0) >>> 5),
   b 5 &&& 0x1F,
   (b 6 &&& 0xF8) >>> 3,
   ((b 6 &&& 0x07) <<< 2) ||| ((b 7 &&& 0xC0) >>> 6),
   (b 7 &&& 0x3E) >>> 1,
   ((b 7 &&& 0x01) <<< 4) ||| ((b 8 &&& 0xF0) >>> 4),
   ((b 8 &&& 0x0F) <<< 1) ||| ((b 9 &&& 0x80) >>> 7),
   (b 9 &&& 0x7C) >>> 2,
   ((b 9 &&& 0x03) <<< 3) ||| ((b 10 &&& 0xE0) >>> 5),
   b 10 &&& 0x1F,
   (b 11 &&& 0xF8) >>> 3,
   ((b 11 &&& 0x07) <<< 2) ||| ((b 12 &&& 0xC0) >>> 6),
   (b 12 &&& 0x3E) >>> 1,
   ((b 12 &&& 0x01) <<< 4) ||| ((b 13 &&& 0xF0) >>> 4),
   ((b 13 &&& 0x0F) <<< 1) ||| ((b 14 &&& 0x80) >>> 7),
   (b 14 &&& 0x7C) >>> 2,
   ((b 14 &&& 0x03) <<< 3) ||| ((b 15 &&& 0xE0) >>> 5),
   b 15 &&& 0x1F]

/-- The 16 rows of R186, for `v k` the k-th of the 26 symbol values. -/
def decodeBytes (v : Nat → Nat) : List Nat :=
  [((v 0 &&& 0x07) <<< 5) ||| v 1,
   (v 2 <<< 3) ||| ((v 3 &&& 0x1C) >>> 2),
   ((v 3 &&& 0x03) <<< 6) ||| (v 4 <<< 1) ||| ((v 5 &&& 0x10) >>> 4),
   ((v 5 &&& 0x0F) <<< 4) ||| ((v 6 &&& 0x1E) >>> 1),
   ((v 6 &&& 0x01) <<< 7) ||| (v 7 <<< 2) ||| ((v 8 &&& 0x18) >>> 3),
   ((v 8 &&& 0x07) <<< 5) ||| v 9,
   (v 10 <<< 3) ||| ((v 11 &&& 0x1C) >>> 2),
   ((v 11 &&& 0x03) <<< 6) ||| (v 12 <<< 1) ||| ((v 13 &&& 0x10) >>> 4),
   ((v 13 &&& 0x0F) <<< 4) ||| ((v 14 &&& 0x1E) >>> 1),
   ((v 14 &&& 0x01) <<< 7) ||| (v 15 <<< 2) ||| ((v 16 &&& 0x18) >>> 3),
   ((v 16 &&& 0x07) <<< 5) ||| v 17,
   (v 18 <<< 3) ||| ((v 19 &&& 0x1C) >>> 2),
   ((v 19 &&& 0x03) <<< 6) ||| (v 20 <<< 1) ||| ((v 21 &&& 0x10) >>> 4),
   ((v 21 &&& 0x0F) <<< 4) ||| ((v 22 &&& 0x1E) >>> 1),
   ((v 22 &&& 0x01) <<< 7) ||| (v 23 <<< 2) ||| ((v 24 &&& 0x18) >>> 3),
   ((v 24 &&& 0x07) <<< 5) ||| v 25]

/-- The 26 characters R161 and R162 give the 16 bytes in front of IN_BUF. -/
def encodedText (buf : Vector Byte 26) : Vector Byte 26 :=
  Vector.ofFn fun k =>
    encTable.toList.getD ((encodeGroups fun j => (buf.toList.getD j 0#8).toNat).getD k.val 0) 0#8

/-- An OUT_BUF with the given numbers as its first bytes, each truncated to 8 bits, and 0x00 after them (R103). -/
def bufOf (bytes : List Nat) : Vector Byte 26 := Vector.ofFn fun i => BitVec.ofNat 8 (bytes.getD i.val 0)

/-- Upper case of an ASCII letter; every other byte is kept. -/
def upperByte (b : Byte) : Byte := if 0x61 ≤ b.toNat ∧ b.toNat ≤ 0x7A then b - 0x20#8 else b

/-- Lower case of an ASCII letter; every other byte is kept. -/
def lowerByte (b : Byte) : Byte := if 0x41 ≤ b.toNat ∧ b.toNat ≤ 0x5A then b + 0x20#8 else b

/-- Byte-wise lexicographic order of two sequences of one length (R145, R165): they agree up to an index at which the
first is smaller. -/
def lexLess {n : Nat} (a b : Vector Byte n) : Prop :=
  ∃ i : Fin n, (∀ j : Fin n, j.val < i.val → a[j.val] = b[j.val]) ∧ a[i.val].toNat < b[i.val].toNat

/-- Row `hi` of the table of R123, columns x0 to xF: a symbol value, `none` for `--`; the two `O*` entries take the
value given. -/
def decTableRow (foldO : Option Nat) (hi : Nat) : List (Option Nat) :=
  match hi with
  | 3 => [some 0x00, some 0x01, some 0x02, some 0x03, some 0x04, some 0x05, some 0x06, some 0x07,
          some 0x08, some 0x09, none, none, none, none, none, none]
  | 4 => [none, some 0x0A, some 0x0B, some 0x0C, some 0x0D, some 0x0E, some 0x0F, some 0x10,
          some 0x11, some 0x01, some 0x12, some 0x13, some 0x01, some 0x14, some 0x15, foldO]
  | 5 => [some 0x16, some 0x17, some 0x18, some 0x19, some 0x1A, none, some 0x1B, some 0x1C,
          some 0x1D, some 0x1E, some 0x1F, none, none, none, none, none]
  | 6 => [none, some 0x0A, some 0x0B, some 0x0C, some 0x0D, some 0x0E, some 0x0F, some 0x10,
          some 0x11, some 0x01, some 0x12, some 0x13, some 0x01, some 0x14, some 0x15, foldO]
  | 7 => [some 0x16, some 0x17, some 0x18, some 0x19, some 0x1A, none, some 0x1B, some 0x1C,
          some 0x1D, some 0x1E, some 0x1F, none, none, none, none, none]
  | _ => List.replicate 16 none

/-- What a legal, well-typed command of the right length may still fail on: only DECODE, on its content (R218). -/
def contentFails (s : State) : Prop :=
  (∃ k : Fin 26, decTable s.params s.inBuf[k.val] = none) ∨
    (s.params.pStrictFirst = true ∧ ∃ v, decTable s.params s.inBuf[0] = some v ∧ 7 < v.toNat)

end Sys2Proof.Claims

open Sys2Proof Sys2Proof.Machine Sys2Proof.Claims Sys2Proof.Safety

/-! ### Reset -/

/-- R240. The reset input, taken between two accesses, sets every register to its reset value, whatever the state; it
leaves the build parameters, which are not state, and the host's own events and replies (assumptions 1, 3, 4). -/
def Obligations.ResetEventSetsEveryRegister : Prop :=
  ∀ (s : State) (rest : List HostEvent), s.pending = .reset :: rest →
    step s = .next
      { lastCmd := 0x00#8, status := 0x00#8, outLen := 0x00#8, inLen := 0#32, inInt := 0#64, outInt := 0#64,
        inBuf := Vector.replicate 26 0x00#8, outBuf := Vector.replicate 26 0x00#8,
        params := s.params, pending := rest, replies := s.replies }

/-- R20, R241. At power-on every register holds its reset value, so every address of the map reads 0x00; the
parameters' defaults are R9's, and the empty queue and replies are the model's choice (assumptions 1, 3, 4). -/
def Obligations.PowerOnStateReadsAllZero : Prop :=
  (∀ a : Addr, memRead State.reset a = 0x00#8) ∧
  State.reset.params = { pFoldO := false, pStrictFirst := false } ∧
  State.reset.pending = [] ∧ State.reset.replies = [] ∧ core.reset = State.reset

/-- R243, vectors of P5. A command may be the first access after reset: it sees the reset inputs, so EXTRACT.blob and
ENCODE.blob give LENGTH (IN_LEN is 0), and PACK.int gives six zero bytes. -/
def Obligations.FirstCommandSeesResetInputs : Prop :=
  step (State.reset.withFetchWord 8 0x45) = .next (cleared (taking State.reset 0x45#8 []) 0x0B#8) ∧
  step (State.reset.withFetchWord 8 0x43) = .next (cleared (taking State.reset 0x43#8 []) 0x0B#8) ∧
  step (State.reset.withFetchWord 8 0x11) = .next (withOutputs (taking State.reset 0x11#8 []) clearBuf 6#8 0#64 0x01#8)

/-! ### The register map -/

/-- R65. The map: what a read returns at every address, by the bytes' numbers; a reserved address reads 0x00; a write
to a read-only or reserved address is ignored and changes nothing. -/
def Obligations.RegisterMapReadsAndIgnoredWrites : Prop :=
  (∀ (s : State) (a : Addr),
    (a.toNat = 0x00 → memRead s a = s.lastCmd) ∧
    (a.toNat = 0x01 → memRead s a = s.status) ∧
    (a.toNat = 0x02 → memRead s a = s.outLen) ∧
    (0x04 ≤ a.toNat → a.toNat ≤ 0x07 →
      (memRead s a).toNat = s.inLen.toNat / 2 ^ (8 * (0x07 - a.toNat)) % 256) ∧
    (0x08 ≤ a.toNat → a.toNat ≤ 0x0F →
      (memRead s a).toNat = s.inInt.toNat / 2 ^ (8 * (0x0F - a.toNat)) % 256) ∧
    (0x10 ≤ a.toNat → a.toNat ≤ 0x17 →
      (memRead s a).toNat = s.outInt.toNat / 2 ^ (8 * (0x17 - a.toNat)) % 256) ∧
    (0x20 ≤ a.toNat → a.toNat ≤ 0x39 → memRead s a = s.inBuf.toList.getD (a.toNat - 0x20) 0#8) ∧
    (0x40 ≤ a.toNat → a.toNat ≤ 0x59 → memRead s a = s.outBuf.toList.getD (a.toNat - 0x40) 0#8) ∧
    (reservedAddr a = true → memRead s a = 0x00#8)) ∧
  (∀ (s : State) (a : Addr) (v : Byte) (rest : List HostEvent), s.pending = .wr a v :: rest →
    (readOnly a = true ∨ reservedAddr a = true) → step s = .next { s with pending := rest })

/-- R62. A multi-byte register is the big-endian value of the bytes at its addresses, lowest address first; and bytes
0x0A–0x0F of IN_INT are the six bytes PACK produces. -/
def Obligations.MultiByteRegistersAreBigEndian : Prop :=
  ∀ s : State,
    bigEndian ([0x04#8, 0x05#8, 0x06#8, 0x07#8].map (memRead s)) = s.inLen.toNat ∧
    bigEndian ([0x08#8, 0x09#8, 0x0A#8, 0x0B#8, 0x0C#8, 0x0D#8, 0x0E#8, 0x0F#8].map (memRead s)) = s.inInt.toNat ∧
    bigEndian ([0x10#8, 0x11#8, 0x12#8, 0x13#8, 0x14#8, 0x15#8, 0x16#8, 0x17#8].map (memRead s)) = s.outInt.toNat ∧
    [0x0A#8, 0x0B#8, 0x0C#8, 0x0D#8, 0x0E#8, 0x0F#8].map (memRead s) = (pack48 s.inInt).toList

/-- R64. Byte i of the operand is at 0x20 + i, byte i of the result at 0x40 + i. -/
def Obligations.BuffersAreInIndexOrder : Prop :=
  ∀ (s : State) (i : Fin 26),
    memRead s (BitVec.ofNat 8 (0x20 + i.val)) = s.inBuf[i.val] ∧
    memRead s (BitVec.ofNat 8 (0x40 + i.val)) = s.outBuf[i.val]

/-- R66, R68. A host write that runs no command completes; at a writable address the byte reads back, and every other
address, the other bytes of the same register among them, reads as before; the parameters and replies stay. -/
def Obligations.HostWriteStoresOneByteOnly : Prop :=
  ∀ (s : State) (a : Addr) (v : Byte) (rest : List HostEvent), s.pending = .wr a v :: rest → a ≠ 0x00#8 →
    ∃ t, step s = .next t ∧
      (∀ b : Addr, memRead t b = if b = a ∧ writable a = true then v else memRead s b) ∧
      t.params = s.params ∧ t.replies = s.replies ∧ t.pending = rest

/-- R66, R87. A host read drives the byte at its address and changes no register: the state differs only in the event
taken and the reply given (assumption 3). -/
def Obligations.HostReadChangesNoRegister : Prop :=
  ∀ (s : State) (a : Addr) (rest : List HostEvent), s.pending = .rd a :: rest →
    step s = .next { s with pending := rest, replies := s.replies ++ [memRead s a] } ∧
    ∀ t, step s = .next t → ∀ b : Addr, memRead t b = memRead s b

/-- R66. Writing the same command byte twice runs the command twice and leaves the state one run leaves. -/
def Obligations.RepeatedCommandIsIdempotent : Prop :=
  ∀ (s : State) (c : Byte) (rest : List HostEvent),
    Host.Core.run core 2 { s with pending := .wr 0x00#8 c :: .wr 0x00#8 c :: rest } =
      Host.Core.run core 1 { s with pending := .wr 0x00#8 c :: rest }

/-- R7. The block takes no step of its own: with no host event pending nothing changes. That the model's step then
answers the same state is the model's choice (assumption 2). -/
def Obligations.NoEventNoChange : Prop :=
  ∀ s : State, s.pending = [] → step s = .next s

/-! ### Encoding -/

/-- R80–R84. Some command bytes, written out bit by bit as RSV KIND OP, decode to the commands they stand for, and
the bits of illegal bytes to their reasons. -/
def Obligations.CommandBytesDecodeAsWritten : Prop :=
  decode 0b00010001#8 = .ok (.pack .integer) ∧ decode 0b01000010#8 = .ok (.unpack .blob) ∧
  decode 0b01000011#8 = .ok (.encode .blob) ∧ decode 0b00110100#8 = .ok (.decode .text) ∧
  decode 0b01000101#8 = .ok (.extract .blob) ∧ decode 0b00000001#8 = .ok (.pack .null) ∧
  decode 0b00100010#8 = .ok (.unpack .other) ∧ decode 0b10000001#8 = .error .reservedBitSet ∧
  decode 0b00010000#8 = .error .illegalOp ∧ decode 0b01010011#8 = .error .illegalKind

/-- R84. Decode and encode agree in both directions: a byte decodes to a well-formed command exactly when it is that
command's encoding, so no bit of a byte is dropped. -/
def Obligations.DecodeInvertsEncode : Prop :=
  ∀ (i : Instr) (c : Byte), i.wf = true → (decode c = .ok i ↔ c = encode i)

/-- R84. The decoder accepts exactly the legal bytes; 25 bytes are legal and 231 illegal; and each illegal one, written
to 0x00, gives ERROR with class ILLEGAL_COMMAND. -/
def Obligations.ExactlyTwentyFiveBytesAreLegal : Prop :=
  (∀ c : Byte, (∃ i, decode c = .ok i) ↔ legalByte c = true) ∧
  ((List.range 256).filter fun n => legalByte (BitVec.ofNat 8 n)).length = 25 ∧
  ((List.range 256).filter fun n => !legalByte (BitVec.ofNat 8 n)).length = 231 ∧
  ∀ (s : State) (c : Byte) (rest : List HostEvent), s.pending = .wr 0x00#8 c :: rest → legalByte c = false →
    ∃ t, step s = .next t ∧ t.status = 0x17#8

/-- R85, R86. The lines of a host program expand to bus events that do what their names say: WRLEN and WRINT set the
whole register, WRBUF and OPERAND the bytes in front of IN_BUF and no other, and nothing else changes. -/
def Obligations.WritePseudoInstructionsSetTheirRegister : Prop :=
  (∀ (s : State) (n : BitVec 32) (rest : List HostEvent), s.pending = lineEvents (.wrLen n) ++ rest →
    Host.Core.run core 4 s = .next { s with inLen := n, pending := rest }) ∧
  (∀ (s : State) (x : BitVec 64) (rest : List HostEvent), s.pending = lineEvents (.wrInt x) ++ rest →
    Host.Core.run core 8 s = .next { s with inInt := x, pending := rest }) ∧
  (∀ (s : State) (bs : List Byte) (rest : List HostEvent), bs.length ≤ 26 →
    s.pending = lineEvents (.wrBuf bs) ++ rest →
    Host.Core.run core bs.length s = .next
      { s with inBuf := Vector.ofFn fun i => bs.getD i.val s.inBuf[i.val], pending := rest }) ∧
  (∀ (s : State) (bs : List Byte) (rest : List HostEvent), bs.length ≤ 26 →
    (s.pending = lineEvents (.operandBlob bs) ++ rest ∨ s.pending = lineEvents (.operandText bs) ++ rest) →
    Host.Core.run core (bs.length + 4) s = .next
      { s with
        inBuf := Vector.ofFn fun i => bs.getD i.val s.inBuf[i.val]
        inLen := BitVec.ofNat 32 bs.length
        pending := rest })

/-- R67, R86. RDINT with no command between its byte reads reads the whole of OUT_INT, big-endian; RDBUF n reads the
first n bytes of OUT_BUF in order; RDST reads STATUS. No register changes. -/
def Obligations.ReadPseudoInstructionsReadTheirRegister : Prop :=
  (∀ (s : State) (rest : List HostEvent), s.pending = lineEvents .rdInt ++ rest →
    ∃ bytes : List Byte, Host.Core.run core 8 s = .next { s with pending := rest, replies := s.replies ++ bytes } ∧
      bytes.length = 8 ∧ bigEndian bytes = s.outInt.toNat) ∧
  (∀ (s : State) (n : Nat) (rest : List HostEvent), n ≤ 26 → s.pending = lineEvents (.rdBuf n) ++ rest →
    Host.Core.run core n s = .next { s with pending := rest, replies := s.replies ++ s.outBuf.toList.take n }) ∧
  (∀ (s : State) (rest : List HostEvent), s.pending = lineEvents .rdSt ++ rest →
    Host.Core.run core 1 s = .next { s with pending := rest, replies := s.replies ++ [s.status] })

/-! ### Command execution -/

/-- R22, R100. A write of a byte to 0x00 runs the command it decodes to, as one step, with the byte in LAST_CMD; the
byte is stored, and reads back, even when it is illegal. -/
def Obligations.StepRunsTheDecodedCommand : Prop :=
  ∀ (s : State) (c : Byte) (rest : List HostEvent), s.pending = .wr 0x00#8 c :: rest →
    (∀ i, decode c = .ok i → step s = exec i (taking s c rest)) ∧
    ∃ t, step s = .next t ∧ t.lastCmd = c ∧ memRead t 0x00#8 = c

/-- The placed command is the next one run (the host's withFetchWord; assumption 1). -/
def Obligations.PlacedCommandIsTheNextStep : Prop :=
  ∀ (s : State) (w : Nat) (i : Instr), decodeTableWord 8 w = some i →
    step (s.withFetchWord 8 w) = exec i { s with lastCmd := BitVec.ofNat 8 w }

/-- R65, R100, R219. No access faults, stalls or raises anything: every step answers a next state. -/
def Obligations.EveryStepAnswersANextState : Prop :=
  ∀ s : State, ∃ t, step s = .next t

/-- R101, R214. A write to 0x00 ends in the first outcome of the priority list that applies: ILLEGAL_COMMAND, NULL,
TYPE, LENGTH, CONTENT, VALUE. Written over the bits of the byte, apart from the decoder. -/
def Obligations.OutcomePriority : Prop :=
  ∀ (s : State) (c : Byte) (rest : List HostEvent), s.pending = .wr 0x00#8 c :: rest →
    ∃ t, step s = .next t ∧
      let op := c.toNat % 16
      let kind := c.toNat / 16 % 8
      let expected := if op = 1 then 1 else if op = 4 then 3 else 4
      let required := if op = 2 then 6 else if op = 4 then 26 else 16
      (legalByte c = false → t.status = 0x17#8) ∧
      (legalByte c = true → kind = 0 → t.status = 0x02#8) ∧
      (legalByte c = true → kind ≠ 0 → kind ≠ expected → t.status = 0x07#8) ∧
      (legalByte c = true → kind ≠ 0 → kind = expected → op ≠ 1 → s.inLen.toNat ≠ required → t.status = 0x0B#8) ∧
      (legalByte c = true → kind ≠ 0 → kind = expected → op = 4 → s.inLen.toNat = required → contentFails s →
        t.status = 0x0F#8) ∧
      (legalByte c = true → kind ≠ 0 → kind = expected → (op = 1 ∨ s.inLen.toNat = required) →
        (op = 4 → ¬ contentFails s) → t.status = 0x01#8)

/-- R215. An illegal byte: no operand register is read, every output is cleared, STATUS is 0x17 and LAST_CMD holds the
byte; nothing else changes. -/
def Obligations.IllegalByteRaisesIllegalCommand : Prop :=
  ∀ (s : State) (c : Byte) (rest : List HostEvent), s.pending = .wr 0x00#8 c :: rest → legalByte c = false →
    step s = .next (cleared (taking s c rest) 0x17#8)

/-- R212. A null operand gives the null result whatever the inputs hold, and a command gives it in no other case. -/
def Obligations.NullOperandGivesNullResult : Prop :=
  ∀ (i : Instr) (s : State),
    (i.kind = .null → exec i s = .next (cleared s 0x02#8)) ∧
    (∀ t, exec i s = .next t → t.status = 0x02#8 → i.kind = .null)

/-- R216. A kind that is neither NULL nor the expected one gives TYPE, whatever the length and the content, and a
command gives TYPE in no other case. -/
def Obligations.WrongKindRaisesType : Prop :=
  ∀ (i : Instr) (s : State),
    (i.kind ≠ .null → i.kind ≠ expectedKind i → exec i s = .next (cleared s 0x07#8)) ∧
    (∀ t, exec i s = .next t → t.status = 0x07#8 → i.kind ≠ .null ∧ i.kind ≠ expectedKind i)

/-- R217. A well-typed command whose IN_LEN is not its required length gives LENGTH, for every other 32-bit value and
whatever IN_BUF holds; PACK never does, and nothing else gives LENGTH. -/
def Obligations.WrongLengthRaisesLength : Prop :=
  ∀ (i : Instr) (s : State),
    (∀ n, i.kind = expectedKind i → requiredLength i = some n → s.inLen.toNat ≠ n →
      exec i s = .next (cleared s 0x0B#8)) ∧
    (∀ t, exec i s = .next t → t.status = 0x0B#8 →
      i.kind = expectedKind i ∧ ∃ n, requiredLength i = some n ∧ s.inLen.toNat ≠ n)

/-- R182, R218. A well-typed DECODE of length 26 gives CONTENT exactly when a character is INVALID or, under
P_STRICT_FIRST, the first symbol is above 7; no other command gives CONTENT. -/
def Obligations.BadContentRaisesContent : Prop :=
  (∀ s : State, s.inLen = 26#32 → contentFails s → exec (.decode .text) s = .next (cleared s 0x0F#8)) ∧
  (∀ (i : Instr) (s t : State), exec i s = .next t → t.status = 0x0F#8 →
    i = .decode .text ∧ s.inLen = 26#32 ∧ contentFails s)

/-- R211, R213. Every failure, of a legal or an illegal byte, is one commit: outputs cleared, ERR_CLASS the class and
RESULT 3 in STATUS, nothing else changed; and the class is never RESOURCE (code 4). -/
def Obligations.FailureClearsOutputs : Prop :=
  ∀ (s t : State) (c : Byte) (rest : List HostEvent), s.pending = .wr 0x00#8 c :: rest → step s = .next t →
    resultField t.status = 3#2 →
    t = cleared (taking s c rest) (0x03#8 ||| ((errClassField t.status).setWidth 8 <<< 2)) ∧
    (errClassField t.status = 1#3 ∨ errClassField t.status = 2#3 ∨ errClassField t.status = 3#3 ∨
      errClassField t.status = 5#3)

/-- R104. No command, legal or illegal, writes IN_LEN, IN_INT or IN_BUF. -/
def Obligations.CommandsNeverWriteInputs : Prop :=
  ∀ (s t : State) (c : Byte) (rest : List HostEvent), s.pending = .wr 0x00#8 c :: rest → step s = .next t →
    t.inLen = s.inLen ∧ t.inInt = s.inInt ∧ t.inBuf = s.inBuf

/-- R103, R104, R66. The frame of the five commands: every address but STATUS, OUT_LEN, OUT_INT and OUT_BUF reads as
before, and LAST_CMD, the parameters, the host's events and replies are as before. -/
def Obligations.CommandFrame : Prop :=
  ∀ (i : Instr) (s t : State), exec i s = .next t →
    (∀ a : Addr, readOnly a = false → memRead t a = memRead s a) ∧
    t.lastCmd = s.lastCmd ∧ t.inLen = s.inLen ∧ t.inInt = s.inInt ∧ t.inBuf = s.inBuf ∧
    t.params = s.params ∧ t.pending = s.pending ∧ t.replies = s.replies

/-- R36, R105. The outcome of a command byte depends only on the byte, the three input registers and the parameters:
no earlier command, STATUS or output enters it. -/
def Obligations.OutcomeDependsOnInputsOnly : Prop :=
  ∀ (s s' t t' : State) (c : Byte) (rest rest' : List HostEvent),
    s.pending = .wr 0x00#8 c :: rest → s'.pending = .wr 0x00#8 c :: rest' →
    s.inLen = s'.inLen → s.inInt = s'.inInt → s.inBuf = s'.inBuf → s.params = s'.params →
    step s = .next t → step s' = .next t' →
    t.lastCmd = t'.lastCmd ∧ t.status = t'.status ∧ t.outLen = t'.outLen ∧ t.outInt = t'.outInt ∧
      t.outBuf = t'.outBuf

/-- R102. Which operand each command reads: PACK reads IN_INT alone; the others never read IN_INT, read IN_BUF only
when IN_LEN is the required length, and then only below it (EXTRACT's last ten bytes have no effect, R200). -/
def Obligations.CommandsReadOnlyTheirOperand : Prop :=
  ∀ (s s' t t' : State) (i : Instr), exec i s = .next t → exec i s' = .next t' → s.params = s'.params →
    (match i with
      | .pack _ => s.inInt = s'.inInt
      | .unpack _ => s.inLen = s'.inLen ∧ (s.inLen = 6#32 → ∀ k : Fin 26, k.val < 6 → s.inBuf[k.val] = s'.inBuf[k.val])
      | .encode _ => s.inLen = s'.inLen ∧ (s.inLen = 16#32 → ∀ k : Fin 26, k.val < 16 → s.inBuf[k.val] = s'.inBuf[k.val])
      | .decode _ => s.inLen = s'.inLen ∧ (s.inLen = 26#32 → s.inBuf = s'.inBuf)
      | .extract _ => s.inLen = s'.inLen ∧ (s.inLen = 16#32 → ∀ k : Fin 26, k.val < 6 → s.inBuf[k.val] = s'.inBuf[k.val])) →
    t.status = t'.status ∧ t.outLen = t'.outLen ∧ t.outInt = t'.outInt ∧ t.outBuf = t'.outBuf

/-- R220, R23. An error stays visible until the next write to 0x00 or the next reset: no other event changes STATUS,
LAST_CMD or an output register. -/
def Obligations.ResultStaysUntilCommandOrReset : Prop :=
  ∀ (s t : State) (e : HostEvent) (rest : List HostEvent), s.pending = e :: rest → isCommand e = false → e ≠ .reset →
    step s = .next t →
    t.status = s.status ∧ t.lastCmd = s.lastCmd ∧ t.outLen = s.outLen ∧ t.outInt = s.outInt ∧ t.outBuf = s.outBuf

/-- R242. RESULT = NONE is only ever the effect of reset: every command sets RESULT to VALUE, NULL or ERROR, and no
other event than reset makes it NONE; after reset every output register is zero. -/
def Obligations.NoneIsOnlyTheEffectOfReset : Prop :=
  ∀ (s t : State) (e : HostEvent) (rest : List HostEvent), s.pending = e :: rest → step s = .next t →
    (isCommand e = true →
      resultField t.status = 1#2 ∨ resultField t.status = 2#2 ∨ resultField t.status = 3#2) ∧
    (resultField t.status = 0#2 → e = .reset ∨ resultField s.status = 0#2) ∧
    (e = .reset → t.status = 0x00#8 ∧ t.outLen = 0#8 ∧ t.outInt = 0#64 ∧ t.outBuf = clearBuf)

/-- R9. No event changes the build parameters (which the model carries in its state: assumption 4). -/
def Obligations.ParametersNeverChange : Prop :=
  ∀ s t : State, step s = .next t → t.params = s.params

/-! ### The results of the five commands -/

/-- R143. PACK.int completes in every state: OUT_BUF[0..6) are bits 47:0 of IN_INT, most significant byte first, bits
63:48 discarded; the rest of OUT_BUF is 0, OUT_LEN 6, OUT_INT 0, STATUS 0x01; nothing else changes. PACK.null gives
NULL and every other kind TYPE. -/
def Obligations.PackWritesTheTimestampBytes : Prop :=
  ∀ s : State,
    exec (.pack .integer) s = .next
      (withOutputs s
        (bufOf [s.inInt.toNat / 2 ^ 40, s.inInt.toNat / 2 ^ 32, s.inInt.toNat / 2 ^ 24, s.inInt.toNat / 2 ^ 16,
                s.inInt.toNat / 2 ^ 8, s.inInt.toNat])
        6#8 0#64 0x01#8) ∧
    exec (.pack .null) s = .next (cleared s 0x02#8) ∧
    ∀ k : Kind, k = .other ∨ k = .text ∨ k = .blob → exec (.pack k) s = .next (cleared s 0x07#8)

/-- R144. UNPACK.blob of length 6 completes: OUT_INT is the six bytes of IN_BUF, big-endian, with bits 63:48 zero;
OUT_BUF is cleared, OUT_LEN 0, STATUS 0x01; nothing else changes. Any other length gives LENGTH, UNPACK.null NULL and
every other kind TYPE. -/
def Obligations.UnpackWritesTheInteger : Prop :=
  ∀ s : State,
    (s.inLen = 6#32 → exec (.unpack .blob) s = .next
      (withOutputs s clearBuf 0#8
        (0#16 ++ s.inBuf[0] ++ s.inBuf[1] ++ s.inBuf[2] ++ s.inBuf[3] ++ s.inBuf[4] ++ s.inBuf[5]) 0x01#8)) ∧
    (s.inLen ≠ 6#32 → exec (.unpack .blob) s = .next (cleared s 0x0B#8)) ∧
    exec (.unpack .null) s = .next (cleared s 0x02#8) ∧
    ∀ k : Kind, k = .integer ∨ k = .other ∨ k = .text → exec (.unpack k) s = .next (cleared s 0x07#8)

/-- R200. EXTRACT.blob of length 16 completes: OUT_INT is the first six bytes of IN_BUF, big-endian; the other ten do
not enter it; OUT_BUF is cleared, OUT_LEN 0, STATUS 0x01; nothing else changes. Any other length, 6 among them, gives
LENGTH, EXTRACT.null NULL and every other kind TYPE. -/
def Obligations.ExtractWritesTheTimestamp : Prop :=
  ∀ s : State,
    (s.inLen = 16#32 → exec (.extract .blob) s = .next
      (withOutputs s clearBuf 0#8
        (0#16 ++ s.inBuf[0] ++ s.inBuf[1] ++ s.inBuf[2] ++ s.inBuf[3] ++ s.inBuf[4] ++ s.inBuf[5]) 0x01#8)) ∧
    (s.inLen ≠ 16#32 → exec (.extract .blob) s = .next (cleared s 0x0B#8)) ∧
    exec (.extract .null) s = .next (cleared s 0x02#8) ∧
    ∀ k : Kind, k = .integer ∨ k = .other ∨ k = .text → exec (.extract k) s = .next (cleared s 0x07#8)

/-- R163, its characters by R162's shifts and masks, which the spec marks as derived from R160 (log entry 9: DEDUCED).
ENCODE.blob of length 16 completes, for every 16 bytes: OUT_BUF is the 26 characters, OUT_LEN 26, OUT_INT 0, STATUS
0x01; nothing else changes. Any other length gives LENGTH, ENCODE.null NULL and every other kind TYPE, a text of 16
bytes among them. -/
def Obligations.EncodeWritesTheText : Prop :=
  ∀ s : State,
    (s.inLen = 16#32 →
      exec (.encode .blob) s = .next (withOutputs s (encodedText s.inBuf) 26#8 0#64 0x01#8)) ∧
    (s.inLen ≠ 16#32 → exec (.encode .blob) s = .next (cleared s 0x0B#8)) ∧
    exec (.encode .null) s = .next (cleared s 0x02#8) ∧
    ∀ k : Kind, k = .integer ∨ k = .other ∨ k = .text → exec (.encode k) s = .next (cleared s 0x07#8)

/-- R185, its bytes by R186's shifts and masks, which the spec marks as derived from R181 (log entry 9: DEDUCED).
DECODE.text of length 26 completes on every valid text: OUT_BUF[0..16) are the 16 bytes of its symbols, the rest 0,
OUT_LEN 16, OUT_INT 0, STATUS 0x01; nothing else changes. A text that is not valid gives CONTENT, any other length
LENGTH whatever the characters, DECODE.null NULL, every other kind TYPE. -/
def Obligations.DecodeWritesTheBytes : Prop :=
  ∀ s : State,
    (∀ v : Fin 26 → Symbol, s.inLen = 26#32 → (∀ k : Fin 26, decTable s.params s.inBuf[k.val] = some (v k)) →
      (s.params.pStrictFirst = true → (v 0).toNat ≤ 7) →
      exec (.decode .text) s = .next
        (withOutputs s (bufOf (decodeBytes fun k => if h : k < 26 then (v ⟨k, h⟩).toNat else 0)) 16#8 0#64 0x01#8)) ∧
    (s.inLen = 26#32 → contentFails s → exec (.decode .text) s = .next (cleared s 0x0F#8)) ∧
    (s.inLen ≠ 26#32 → exec (.decode .text) s = .next (cleared s 0x0B#8)) ∧
    exec (.decode .null) s = .next (cleared s 0x02#8) ∧
    ∀ k : Kind, k = .integer ∨ k = .other ∨ k = .blob → exec (.decode k) s = .next (cleared s 0x07#8)

/-! ### The tables -/

/-- R122, R123 (the table is derived in the spec: log entry 9). DEC_TABLE is the 256-entry table of R123, for both
values of P_FOLD_O: under the default 58 entries are valid and 198 INVALID, two of which P_FOLD_O makes 0. -/
def Obligations.DecodeTableIsTheTableOfTheSpec : Prop :=
  (∀ strict : Bool,
    ((List.range 256).map fun n => (decTable { pFoldO := false, pStrictFirst := strict } (BitVec.ofNat 8 n)).map
      BitVec.toNat) = (List.range 16).flatMap (decTableRow none) ∧
    ((List.range 256).map fun n => (decTable { pFoldO := true, pStrictFirst := strict } (BitVec.ofNat 8 n)).map
      BitVec.toNat) = (List.range 16).flatMap (decTableRow (some 0))) ∧
  ((List.range 256).filter fun n =>
    (decTable Config.Params.default (BitVec.ofNat 8 n)).isSome).length = 58

/-- R120, R128 (R128 is derived in the spec: log entry 9). The two tables are inverse on the alphabet, in both cases
of a letter, and ENC_TABLE is strictly increasing; its characters are those of the string of R120. -/
def Obligations.AlphabetTablesAreInverse : Prop :=
  encTable.toList = ("0123456789ABCDEFGHJKMNPQRSTVWXYZ".toList.map fun ch => BitVec.ofNat 8 ch.toNat) ∧
  (∀ (p : Config.Params) (v : Symbol), decTable p (encChar v) = some v ∧
    (10 ≤ v.toNat → decTable p (encChar v + 0x20#8) = some v)) ∧
  ∀ v w : Symbol, v.toNat < w.toNat → (encChar v).toNat < (encChar w).toNat

/-- R124, R125, R126. The glyphs I, i, L and l decode to 1 and U and u are INVALID, whatever the parameters; O and o
decode to 0 exactly under P_FOLD_O, whose default is false; and the encoder emits none of these glyphs. -/
def Obligations.AmbiguousGlyphs : Prop :=
  (∀ p : Config.Params,
    (∀ b : Byte, b = 0x49#8 ∨ b = 0x69#8 ∨ b = 0x4C#8 ∨ b = 0x6C#8 → decTable p b = some 1#5) ∧
    (∀ b : Byte, b = 0x55#8 ∨ b = 0x75#8 → decTable p b = none) ∧
    (∀ b : Byte, b = 0x4F#8 ∨ b = 0x6F#8 → decTable p b = if p.pFoldO = true then some 0#5 else none)) ∧
  Config.Params.default.pFoldO = false ∧
  ∀ v : Symbol, encChar v ∉ [0x49#8, 0x69#8, 0x4C#8, 0x6C#8, 0x4F#8, 0x6F#8, 0x55#8, 0x75#8]

/-! ### Laws of the codec -/

/-- R145 (derived in the spec: log entry 9). unpack48 and pack48 are inverse up to the 48 bits: pack then unpack
reduces modulo 2^48, unpack then pack is the identity, and the packed bytes are the big-endian bytes of the reduced
value. -/
def Obligations.TimestampPackAndUnpackAreInverse : Prop :=
  (∀ x : BitVec 64, (unpack48 (pack48 x)).toNat = x.toNat % 2 ^ 48) ∧
  (∀ x : BitVec 64, bigEndian (pack48 x).toList = x.toNat % 2 ^ 48) ∧
  (∀ b : Vector Byte 6, pack48 (unpack48 b) = b)

/-- R145 (derived in the spec: log entry 9). The packed bytes sort as the timestamps do: for x, y < 2^48, x < y
exactly when pack48 x comes before pack48 y byte by byte. -/
def Obligations.PackedTimestampsSortByTime : Prop :=
  ∀ x y : BitVec 64, x.toNat < 2 ^ 48 → y.toNat < 2 ^ 48 → (x.toNat < y.toNat ↔ lexLess (pack48 x) (pack48 y))

/-- R201 (derived in the spec: log entry 9). EXTRACT of a binary ULID built from a 48-bit timestamp and any ten
randomness bytes gives the timestamp. -/
def Obligations.ExtractRecoversThePackedTimestamp : Prop :=
  ∀ (s : State) (x : BitVec 64), s.inLen = 16#32 → x.toNat < 2 ^ 48 →
    (∀ i : Fin 6, s.inBuf[i.val] = (pack48 x)[i.val]) →
    ∃ t, exec (.extract .blob) s = .next t ∧ t.outInt = x ∧ t.status = 0x01#8

/-- R164 (derived in the spec: log entry 9), R121. Every character of an encoded text is of the alphabet, and the
first is `'0'` to `'7'`. -/
def Obligations.EncodedTextIsCanonical : Prop :=
  ∀ b : Vector Byte 16,
    (∀ k : Fin 26, (encode26 b)[k.val] ∈ encTable.toList) ∧
    0x30 ≤ (encode26 b)[0].toNat ∧ (encode26 b)[0].toNat ≤ 0x37

/-- R165 (derived in the spec: log entry 9). Encoding keeps order: the big-endian values compare as the texts do,
character by character. -/
def Obligations.EncodingPreservesOrder : Prop :=
  ∀ a b : Vector Byte 16, bigEndian a.toList < bigEndian b.toList ↔ lexLess (encode26 a) (encode26 b)

/-- R187, first law (derived in the spec: log entry 9). Decoding an encoded value gives it back, with either value of
either parameter. -/
def Obligations.DecodeInvertsEncode26 : Prop :=
  ∀ (p : Config.Params) (b : Vector Byte 16), decode26 p (encode26 b) = some b

/-- R187, second law (derived in the spec: log entry 9). A text of alphabet characters in either case whose first
symbol is at most 7 decodes, and encoding the result gives the text in upper case. -/
def Obligations.EncodeInvertsDecodeUpToCase : Prop :=
  ∀ (p : Config.Params) (s : Vector Byte 26),
    (∀ k : Fin 26, ∃ v : Symbol, s[k.val] = encChar v ∨ (10 ≤ v.toNat ∧ s[k.val] = encChar v + 0x20#8)) →
    (∀ v, decTable p s[0] = some v → v.toNat ≤ 7) →
    ∃ b, decode26 p s = some b ∧ encode26 b = s.map upperByte

/-- R127, R187, third law (derived in the spec: log entry 9). Decoding does not depend on the case of any letter, for
every text and parameter. -/
def Obligations.DecodingIgnoresCase : Prop :=
  ∀ (p : Config.Params) (s : Vector Byte 26),
    decode26 p (s.map upperByte) = decode26 p s ∧ decode26 p (s.map lowerByte) = decode26 p s

/-- R183. The first character: permissive, its symbol counts modulo 8; strict, a symbol above 7 fails and any other
text decodes as in the permissive block. -/
def Obligations.FirstSymbolRange : Prop :=
  ∀ (foldO : Bool) (s : Vector Byte 26) (v : Symbol),
    decTable { pFoldO := foldO, pStrictFirst := false } s[0] = some v →
    decode26 { pFoldO := foldO, pStrictFirst := false } s =
      decode26 { pFoldO := foldO, pStrictFirst := false } (s.set 0 (encChar (v &&& 7#5))) ∧
    (7 < v.toNat → decode26 { pFoldO := foldO, pStrictFirst := true } s = none) ∧
    (v.toNat ≤ 7 → decode26 { pFoldO := foldO, pStrictFirst := true } s =
      decode26 { pFoldO := foldO, pStrictFirst := false } s)

/-! ### The host's use of the block -/

/-- R244, R245. Presenting an operand of any length sets IN_LEN to its length in bytes, saturated, and the front of
IN_BUF to its first 26 bytes at most; everything else keeps its value. That the host writes the first 26 bytes of a
longer operand, where R245 also allows none, is the model's choice (log entry 13). -/
def Obligations.PresentedOperandIsInTheInputs : Prop :=
  ∀ (s : State) (bs : List Byte) (rest : List HostEvent), s.pending = presentOperand bs ++ rest →
    Host.Core.run core (min bs.length 26 + 4) s = .next
      { s with
        inBuf := Vector.ofFn fun i => bs.getD i.val s.inBuf[i.val]
        inLen := if bs.length < 2 ^ 32 - 1 then BitVec.ofNat 32 bs.length else 0xFFFFFFFF#32
        pending := rest }

/-- R163, R185, R245. ENCODE and DECODE compute encode26 and decode26 on host values of any length, from any state
(the host's events are the model's list, log entry 1; PACK, UNPACK and EXTRACT have statements of their own): an
operand presented and followed by ENCODE.blob, or by DECODE.text, leaves LENGTH for a wrong length, CONTENT for a text
with no decoding, and otherwise exactly encode26 or decode26 of the operand. That the host writes the first 26 bytes of
a longer operand is the model's choice (log entry 13); LongOperandGivesLengthInEitherForm states the other form too. -/
def Obligations.BlockComputesTheCodecOnHostValues : Prop :=
  ∀ (s : State) (bs : List Byte) (rest : List HostEvent),
    (s.pending = presentOperand bs ++ .wr 0x00#8 0x43#8 :: rest →
      ∃ t, Host.Core.run core (min bs.length 26 + 5) s = .next t ∧
        (bs.length ≠ 16 → t.status = 0x0B#8 ∧ t.outLen = 0#8 ∧ t.outBuf = clearBuf) ∧
        (∀ b : Vector Byte 16, bs = b.toList → t.status = 0x01#8 ∧ t.outLen = 26#8 ∧ t.outBuf = encode26 b)) ∧
    (s.pending = presentOperand bs ++ .wr 0x00#8 0x34#8 :: rest →
      ∃ t, Host.Core.run core (min bs.length 26 + 5) s = .next t ∧
        (bs.length ≠ 26 → t.status = 0x0B#8 ∧ t.outLen = 0#8 ∧ t.outBuf = clearBuf) ∧
        (∀ txt : Vector Byte 26, bs = txt.toList →
          (decode26 s.params txt = none → t.status = 0x0F#8 ∧ t.outLen = 0#8 ∧ t.outBuf = clearBuf) ∧
          (∀ b, decode26 s.params txt = some b →
            t.status = 0x01#8 ∧ t.outLen = 16#8 ∧ t.outBuf = bufOf (b.toList.map BitVec.toNat))))

/-! ### The invariant -/

/-- R20, R240. The invariant holds after reset. -/
def Obligations.InvariantHoldsAtReset : Prop := BlockInv State.reset

/-- R23, R26, R29, R31, R103, R121, R210, R212–R215, R242. Every step, from every state that meets it, keeps the
invariant: STATUS takes only its seven values, OUT_LEN only 0, 6, 16, 26, OUT_BUF is zero above OUT_LEN, OUT_INT has 48
bits, no output survives a failure, STATUS and LAST_CMD agree, and a 26-byte result is a canonical text. -/
def Obligations.EveryStepKeepsTheInvariant : Prop :=
  ∀ s t : State, BlockInv s → step s = .next t → BlockInv t

/-- R245, R217. An operand longer than 26 bytes, presented in either form R245 allows (its first 26 bytes and its
length, the model's choice by log entry 13; or its length alone, so that IN_BUF keeps its bytes) and followed by a
well-typed command that reads IN_BUF, gives LENGTH with all outputs cleared, IN_LEN at its saturated length, LAST_CMD
at the byte, and nothing else changed: but for IN_BUF the two forms leave the same state. -/
def Obligations.LongOperandGivesLengthInEitherForm : Prop :=
  ∀ (s : State) (i : Instr) (bs : List Byte) (rest : List HostEvent), 26 < bs.length →
    i = .unpack .blob ∨ i = .encode .blob ∨ i = .decode .text ∨ i = .extract .blob →
    let inLen := if bs.length < 2 ^ 32 - 1 then BitVec.ofNat 32 bs.length else 0xFFFFFFFF#32
    (s.pending = presentOperand bs ++ .wr 0x00#8 (encode i) :: rest →
      Host.Core.run core 31 s = .next { cleared (taking s (encode i) rest) 0x0B#8 with
        inLen := inLen, inBuf := Vector.ofFn fun k => bs.getD k.val 0#8 }) ∧
    (s.pending = presentLength bs ++ .wr 0x00#8 (encode i) :: rest →
      Host.Core.run core 5 s = .next { cleared (taking s (encode i) rest) 0x0B#8 with inLen := inLen })
end

