-- ==== Sys2Proof/Laws/Bits.lean ====
section
/-!
SUPPORT. The laws of big-endian digit sequences, from which the laws of all four codec functions follow: a sequence
of digits is determined by its value, its digits are quotients of the value, and values compare as digit sequences do.
-/

namespace Sys2Proof.Machine

theorem digitsValue_foldl (b : Nat) (ds : List Nat) (acc : Nat) :
    ds.foldl (fun acc d => acc * b + d) acc = acc * b ^ ds.length + digitsValue b ds := by
  induction ds generalizing acc with
  | nil => simp [digitsValue]
  | cons d ds ih =>
    simp only [digitsValue, List.foldl_cons, List.length_cons] at *
    rw [ih, ih (0 * b + d), Nat.pow_succ]
    ring

@[simp] theorem digitsValue_nil (b : Nat) : digitsValue b [] = 0 := rfl

/-- The first digit weighs `b` to the number of digits after it. -/
theorem digitsValue_cons (b d : Nat) (ds : List Nat) :
    digitsValue b (d :: ds) = d * b ^ ds.length + digitsValue b ds := by
  simpa [digitsValue] using digitsValue_foldl b ds d

theorem digitsValue_lt {b : Nat} {ds : List Nat} (h : ∀ d ∈ ds, d < b) : digitsValue b ds < b ^ ds.length := by
  induction ds with
  | nil => simp
  | cons d ds ih =>
    have hd : d < b := h d (by simp)
    have := ih fun x hx => h x (by simp [hx])
    have hmul : (d + 1) * b ^ ds.length ≤ b * b ^ ds.length := Nat.mul_le_mul_right _ hd
    rw [digitsValue_cons, List.length_cons, Nat.pow_succ, Nat.mul_comm _ b]
    calc d * b ^ ds.length + digitsValue b ds < d * b ^ ds.length + b ^ ds.length := by omega
      _ = (d + 1) * b ^ ds.length := by ring
      _ ≤ _ := hmul

/-- Digit `i` of `n` is the value divided by the weight of that digit, modulo the base. -/
theorem digitsValue_digit {b : Nat} {ds : List Nat} (h : ∀ d ∈ ds, d < b) (i : Nat) (hi : i < ds.length) :
    digitsValue b ds / b ^ (ds.length - 1 - i) % b = ds[i] := by
  induction ds generalizing i with
  | nil => simp at hi
  | cons d ds ih =>
    have hd : d < b := h d (by simp)
    have hds : ∀ x ∈ ds, x < b := fun x hx => h x (by simp [hx])
    have hpos : 0 < b := by omega
    rw [digitsValue_cons]
    cases i with
    | zero =>
      have hlt := digitsValue_lt hds
      have hw : 0 < b ^ ds.length := Nat.pow_pos hpos
      simp only [List.length_cons, Nat.add_sub_cancel, Nat.sub_zero, List.getElem_cons_zero]
      rw [Nat.add_comm, Nat.add_mul_div_right _ _ hw, Nat.div_eq_of_lt hlt, Nat.zero_add, Nat.mod_eq_of_lt hd]
    | succ i =>
      have hi' : i < ds.length := by simpa using hi
      have hsplit : b ^ ds.length = b ^ (ds.length - 1 - i) * (b ^ i * b) := by
        rw [← Nat.pow_succ, ← Nat.pow_add]; congr 1; omega
      have hw : 0 < b ^ (ds.length - 1 - i) := Nat.pow_pos hpos
      have harg : (d :: ds).length - 1 - (i + 1) = ds.length - 1 - i := by simp; omega
      rw [harg, hsplit, List.getElem_cons_succ]
      have hre : d * (b ^ (ds.length - 1 - i) * (b ^ i * b)) + digitsValue b ds =
          digitsValue b ds + (d * b ^ i * b) * b ^ (ds.length - 1 - i) := by ring
      rw [hre, Nat.add_mul_div_right _ _ hw, Nat.add_mul_mod_self_right, ih hds i hi']

/-- The `n` low base-`b` digits of `x`, the first the most significant, have the value `x mod b^n`. -/
theorem digitsValue_digits (b x n : Nat) :
    digitsValue b ((List.range n).map fun i => x / b ^ (n - 1 - i) % b) = x % b ^ n := by
  induction n with
  | zero => simp [Nat.mod_one]
  | succ n ih =>
    have htail : (List.range n).map ((fun i => x / b ^ (n + 1 - 1 - i) % b) ∘ Nat.succ) =
        (List.range n).map fun i => x / b ^ (n - 1 - i) % b :=
      List.map_congr_left fun i hi => by
        simp only [Function.comp, Nat.succ_eq_add_one]
        rw [show n + 1 - 1 - (i + 1) = n - 1 - i by omega]
    rw [List.range_succ_eq_map, List.map_cons, List.map_map, htail, digitsValue_cons, ih]
    simp only [List.length_map, List.length_range, Nat.add_sub_cancel, Nat.sub_zero]
    rw [Nat.mod_pow_succ]
    ring

/-- A sequence whose digits are the quotients of `x` has the value `x`. -/
theorem digitsValue_eq_of_digits {b x n : Nat} {ds : List Nat} (hlen : ds.length = n) (hx : x < b ^ n)
    (h : ∀ i (hi : i < ds.length), ds[i] = x / b ^ (n - 1 - i) % b) : digitsValue b ds = x := by
  have hds : ds = (List.range n).map fun i => x / b ^ (n - 1 - i) % b := by
    apply List.ext_getElem
    · simp [hlen]
    · intro i hi _
      simp [h i hi]
  rw [hds, digitsValue_digits, Nat.mod_eq_of_lt hx]

/-- Two digit sequences of one length with the same value are the same sequence. -/
theorem digitsValue_inj {b : Nat} {ds es : List Nat} (hd : ∀ d ∈ ds, d < b) (he : ∀ d ∈ es, d < b)
    (hlen : ds.length = es.length) (h : digitsValue b ds = digitsValue b es) : ds = es := by
  apply List.ext_getElem hlen
  intro i hi hi'
  rw [← digitsValue_digit hd i hi, ← digitsValue_digit he i hi', h, hlen]

/-- Values compare as digit sequences do, byte by byte from the front. -/
theorem digitsValue_lt_iff {b : Nat} {ds es : List Nat} (hd : ∀ d ∈ ds, d < b) (he : ∀ d ∈ es, d < b)
    (hlen : ds.length = es.length) :
    digitsValue b ds < digitsValue b es ↔
      ∃ i, ∃ hi : i < ds.length, (∀ j (hj : j < i), ds[j] = es[j]) ∧ ds[i] < es[i] := by
  induction ds generalizing es with
  | nil =>
    cases es with
    | nil => simp
    | cons e es => simp at hlen
  | cons d ds ih =>
    cases es with
    | nil => simp at hlen
    | cons e es =>
      have hlen' : ds.length = es.length := by simpa using hlen
      have hds : ∀ x ∈ ds, x < b := fun x hx => hd x (by simp [hx])
      have hes : ∀ x ∈ es, x < b := fun x hx => he x (by simp [hx])
      have hdlt := digitsValue_lt hds
      have helt := digitsValue_lt hes
      rw [digitsValue_cons, digitsValue_cons, ← hlen']
      rw [← hlen'] at helt
      generalize hw : b ^ ds.length = w at *
      rcases Nat.lt_trichotomy d e with h | h | h
      · have h1 : (d + 1) * w ≤ e * w := Nat.mul_le_mul_right _ h
        have h2 : (d + 1) * w = d * w + w := by ring
        constructor
        · intro _
          exact ⟨0, by simp, by simp, by simpa using h⟩
        · intro _; omega
      · subst h
        have hiff : d * w + digitsValue b ds < d * w + digitsValue b es ↔ digitsValue b ds < digitsValue b es := by
          omega
        rw [hiff, ih hds hes hlen']
        constructor
        · rintro ⟨i, hi, hpre, hlt⟩
          refine ⟨i + 1, by simpa using hi, ?_, by simpa using hlt⟩
          intro j hj
          cases j with
          | zero => simp
          | succ j => simpa using hpre j (by omega)
        · rintro ⟨i, hi, hpre, hlt⟩
          cases i with
          | zero => simp at hlt
          | succ i =>
            refine ⟨i, by simpa using hi, ?_, by simpa using hlt⟩
            intro j hj
            simpa using hpre (j + 1) (by omega)
      · have h1 : (e + 1) * w ≤ d * w := Nat.mul_le_mul_right _ h
        have h2 : (e + 1) * w = e * w + w := by ring
        constructor
        · intro hlt; omega
        · rintro ⟨i, hi, hpre, hlt⟩
          cases i with
          | zero => simp at hlt; omega
          | succ i =>
            have := hpre 0 (by omega)
            simp at this
            omega

/-- Bit `m` of a value of `w`-bit digits lies in the digit `m / w` places from the last. -/
theorem digitsValue_testBit {w : Nat} {ds : List Nat} (h : ∀ d ∈ ds, d < 2 ^ w) (m : Nat) (hm : m < w * ds.length) :
    (digitsValue (2 ^ w) ds).testBit m = (ds.getD (ds.length - 1 - m / w) 0).testBit (m % w) := by
  have hw : 0 < w := Nat.pos_of_ne_zero fun h0 => by simp [h0] at hm
  have hq : m / w < ds.length := Nat.div_lt_of_lt_mul hm
  have hi : ds.length - 1 - m / w < ds.length := by
    generalize m / w = q at hq
    omega
  have hpos : ds.length - 1 - (ds.length - 1 - m / w) = m / w := by
    generalize m / w = q at hq
    omega
  rw [List.getD_eq_getElem _ _ hi, ← digitsValue_digit h _ hi, hpos, ← Nat.pow_mul, Nat.testBit_mod_two_pow,
    Nat.testBit_div_two_pow]
  simp only [Nat.mod_lt _ hw, decide_true, Bool.true_and]
  rw [Nat.add_comm, Nat.div_add_mod]

theorem toNat_lt_base {w : Nat} {vs : List (BitVec w)} : ∀ d ∈ vs.map BitVec.toNat, d < 2 ^ w := by
  intro d hd
  obtain ⟨v, _, rfl⟩ := List.mem_map.mp hd
  exact v.isLt

theorem bigEndian_lt (bs : List Byte) : bigEndian bs < 256 ^ bs.length := by
  simpa [bigEndian] using digitsValue_lt (b := 256) (toNat_lt_base (vs := bs))

/-- Byte `i` of a sequence, from its big-endian value (R11). -/
theorem bigEndian_byte (bs : List Byte) (i : Nat) (hi : i < bs.length) :
    bigEndian bs / 256 ^ (bs.length - 1 - i) % 256 = bs[i].toNat := by
  have := digitsValue_digit (b := 256) (toNat_lt_base (vs := bs)) i (by simpa using hi)
  simpa [bigEndian] using this

/-- A byte slice of a word is a quotient of it. -/
theorem regByte_toNat {w : Nat} (v : BitVec w) (i : Nat) :
    (regByte v i).toNat = v.toNat / 2 ^ (w - 8 - 8 * i) % 256 := by
  simp [regByte, Nat.shiftRight_eq_div_pow]

/-- Replacing byte `i` of a register: byte `i` reads back and every other byte is kept (R62, R67). -/
theorem regByte_setRegByte {w : Nat} (v : BitVec w) (i j : Nat) (b : Byte) (hi : 8 * i + 8 ≤ w) (hj : 8 * j + 8 ≤ w) :
    regByte (setRegByte v i b) j = if j = i then b else regByte v j := by
  apply BitVec.eq_of_getLsbD_eq
  intro k hk
  have hff : ∀ m : Nat, (255#8).getLsbD m = decide (m < 8) := by
    intro m
    by_cases h : m < 8
    · have : ∀ m : Fin 8, (255#8).getLsbD m.val = true := by decide
      simp [h, this ⟨m, h⟩]
    · have := BitVec.getLsbD_of_ge (255#8) m (by omega)
      simp [h, this]
  by_cases h : j = i
  · subst h
    simp only [regByte, setRegByte, if_true, BitVec.getLsbD_extractLsb', BitVec.getLsbD_or, BitVec.getLsbD_and,
      BitVec.getLsbD_not, BitVec.getLsbD_shiftLeft, BitVec.getLsbD_setWidth, hff]
    have h1 : w - 8 - 8 * j + k < w := by omega
    have h2 : ¬ (w - 8 - 8 * j + k < w - 8 - 8 * j) := by omega
    have h3 : w - 8 - 8 * j + k - (w - 8 - 8 * j) = k := by omega
    have h4 : k < w := by omega
    simp [h1, h2, h3, h4, hk]
  · simp only [regByte, setRegByte, h, if_false, BitVec.getLsbD_extractLsb', BitVec.getLsbD_or, BitVec.getLsbD_and,
      BitVec.getLsbD_not, BitVec.getLsbD_shiftLeft, BitVec.getLsbD_setWidth, hff]
    have h1 : w - 8 - 8 * j + k < w := by omega
    rcases Nat.lt_or_gt_of_ne h with hlt | hgt
    · have h2 : ¬ (w - 8 - 8 * j + k < w - 8 - 8 * i) := by omega
      have h3 : 8 ≤ w - 8 - 8 * j + k - (w - 8 - 8 * i) := by omega
      have h5 : ¬ (w - 8 - 8 * j + k - (w - 8 - 8 * i) < 8) := by omega
      simp [h1, h2, hk, h5, BitVec.getLsbD_of_ge b _ h3]
    · have h2 : w - 8 - 8 * j + k < w - 8 - 8 * i := by omega
      simp [h1, h2, hk]

/-- Two registers of whole bytes with the same bytes are the same register. -/
theorem eq_of_regByte_eq {n : Nat} {v u : BitVec (8 * n)} (h : ∀ i < n, regByte v i = regByte u i) : v = u := by
  apply BitVec.eq_of_getLsbD_eq
  intro k hk
  have hq : k / 8 < n := by omega
  have := congrArg (fun x : Byte => x.getLsbD (k % 8)) (h (n - 1 - k / 8) (by omega))
  simp only [regByte, BitVec.getLsbD_extractLsb'] at this
  have hk' : 8 * n - 8 - 8 * (n - 1 - k / 8) + k % 8 = k := by omega
  have hm : k % 8 < 8 := by omega
  simpa [hk', hm] using this

end Sys2Proof.Machine
end

