-- ==== Sys2Proof/Laws/Codec.lean ====
section
/-!
SUPPORT. What each codec function computes, in the terms of the digit laws of Laws/Bits.lean: every byte or symbol is
a quotient of one number. Later proofs cite these and unfold no codec function.
-/

namespace Sys2Proof.Machine

/-- Byte i of the packed timestamp (R141). -/
theorem pack48_byte (x : BitVec 64) (i : Fin 6) :
    (pack48 x)[i.val].toNat = x.toNat / 256 ^ (5 - i.val) % 256 := by
  have : (256 : Nat) ^ (5 - i.val) = 2 ^ (40 - 8 * i.val) := by
    rw [show (256 : Nat) = 2 ^ 8 by rfl, ← Nat.pow_mul]; congr 1; omega
  simp [pack48, Nat.shiftRight_eq_div_pow, this]

/-- The unpacked timestamp is the big-endian value of the bytes (R142). -/
theorem unpack48_toNat (b : Vector Byte 6) : (unpack48 b).toNat = bigEndian b.toList := by
  have h : bigEndian b.toList < 2 ^ 48 := by simpa using bigEndian_lt b.toList
  simp only [unpack48, BitVec.toNat_setWidth, BitVec.toNat_ofNat]
  omega

/-- The encoding stream is the big-endian value of the 16 bytes: the two pad bits are zero (R160). -/
theorem encodeStream_toNat (b : Vector Byte 16) : (encodeStream b).toNat = bigEndian b.toList := by
  have h : bigEndian b.toList < 2 ^ 128 := by simpa using bigEndian_lt b.toList
  simp only [encodeStream, BitVec.toNat_setWidth, BitVec.toNat_ofNat]
  omega

/-- Group k is base-32 digit k of the stream (R160). -/
theorem group_toNat (w : BitVec 130) (k : Nat) (hk : k < 26) :
    (group w k).toNat = w.toNat / 32 ^ (25 - k) % 32 := by
  have : (32 : Nat) ^ (25 - k) = 2 ^ (125 - 5 * k) := by
    rw [show (32 : Nat) = 2 ^ 5 by rfl, ← Nat.pow_mul]; congr 1; omega
  simp [group, Nat.shiftRight_eq_div_pow, this]

/-- Character k of an encoded text (R161). -/
theorem encode26_char (b : Vector Byte 16) (k : Fin 26) :
    (encode26 b)[k.val] = encChar (group (encodeStream b) k.val) := by
  simp [encode26]

/-- The decoding stream is the base-32 value of the 26 symbols (R181): 26 · 5 = 130 bits hold it whole. -/
theorem decodeStream_toNat (v : Vector Symbol 26) :
    (decodeStream v).toNat = digitsValue 32 (v.toList.map BitVec.toNat) := by
  have h : digitsValue 32 (v.toList.map BitVec.toNat) < 2 ^ 130 := by
    simpa using digitsValue_lt (b := 32) (toNat_lt_base (vs := v.toList))
  simp only [decodeStream, BitVec.toNat_ofNat]
  exact Nat.mod_eq_of_lt h

/-- Output byte j is base-256 digit j of the stream's low 128 bits (R181). -/
theorem streamBytes_byte (w : BitVec 130) (j : Fin 16) :
    (streamBytes w)[j.val].toNat = w.toNat / 256 ^ (15 - j.val) % 256 := by
  have : (256 : Nat) ^ (15 - j.val) = 2 ^ (120 - 8 * j.val) := by
    rw [show (256 : Nat) = 2 ^ 8 by rfl, ← Nat.pow_mul]; congr 1; omega
  simp [streamBytes, Nat.shiftRight_eq_div_pow, this]

/-- A text has the symbols `v` exactly when every character decodes to its symbol (R180, R182). -/
theorem symbols_eq_some (p : Config.Params) (s : Vector Byte 26) (v : Vector Symbol 26) :
    symbols p s = some v ↔ ∀ k : Fin 26, decTable p s[k.val] = some v[k.val] := by
  unfold symbols
  split
  · rename_i h
    rw [Option.some_inj]
    constructor
    · rintro rfl k
      simp
    · intro hv
      apply Vector.ext
      intro k hk
      have := hv ⟨k, hk⟩
      simp only at this
      simp [this]
  · rename_i h
    simp only [reduceCtorEq, false_iff]
    intro hv
    exact h fun k => by simp [hv k]

/-- A text has no symbols exactly when some character is INVALID (R182). -/
theorem symbols_eq_none (p : Config.Params) (s : Vector Byte 26) :
    symbols p s = none ↔ ∃ k : Fin 26, decTable p s[k.val] = none := by
  unfold symbols
  split
  · rename_i h
    simp only [reduceCtorEq, false_iff, not_exists]
    intro k hk
    have := h k
    simp [hk] at this
  · rename_i h
    simp only [true_iff]
    by_contra hne
    exact h fun k => by
      cases hk : decTable p s[k.val] with
      | none => exact absurd ⟨k, hk⟩ hne
      | some v => rfl

/-! ### The two streams are one: groups and symbols, bytes and bytes, are put together as they were taken apart -/

/-- The symbols of a stream's own groups make the stream again (R160, R181). -/
theorem decodeStream_groups (w : BitVec 130) : decodeStream (Vector.ofFn fun k : Fin 26 => group w k.val) = w := by
  apply BitVec.eq_of_toNat_eq
  rw [decodeStream_toNat]
  apply digitsValue_eq_of_digits (n := 26)
  · rw [List.length_map, Vector.length_toList]
  · exact w.isLt
  · intro i hi
    have hi' : i < 26 := by simpa using hi
    rw [List.getElem_map, Vector.getElem_toList, Vector.getElem_ofFn]
    exact group_toNat w i hi'

/-- The groups of a stream made of symbols are the symbols (R160, R181). -/
theorem group_decodeStream (v : Vector Symbol 26) (k : Fin 26) : group (decodeStream v) k.val = v[k.val] := by
  apply BitVec.eq_of_toNat_eq
  rw [group_toNat _ _ k.isLt, decodeStream_toNat]
  have := digitsValue_digit (b := 32) (toNat_lt_base (vs := v.toList)) k.val (by simp)
  simpa using this

/-- The bytes of the encoding stream are the bytes it was made of (R160, R181). -/
theorem streamBytes_encodeStream (b : Vector Byte 16) : streamBytes (encodeStream b) = b := by
  apply Vector.ext
  intro j hj
  apply BitVec.eq_of_toNat_eq
  have h := streamBytes_byte (encodeStream b) ⟨j, hj⟩
  have hb := bigEndian_byte b.toList j (by simpa using hj)
  rw [encodeStream_toNat] at h
  exact h.trans (by simpa using hb)

/-- A stream whose two top bits are zero is the encoding stream of its bytes (R160, R181). -/
theorem encodeStream_streamBytes (w : BitVec 130) (hw : w.toNat < 2 ^ 128) : encodeStream (streamBytes w) = w := by
  apply BitVec.eq_of_toNat_eq
  rw [encodeStream_toNat]
  apply digitsValue_eq_of_digits (n := 16)
  · rw [List.length_map, Vector.length_toList]
  · exact hw
  · intro i hi
    have hi' : i < 16 := by simpa using hi
    rw [List.getElem_map, Vector.getElem_toList]
    exact streamBytes_byte w ⟨i, hi'⟩

/-- DEC_TABLE does not depend on P_STRICT_FIRST (R122). -/
theorem decTable_strict (f a b : Bool) (c : Byte) :
    decTable { pFoldO := f, pStrictFirst := a } c = decTable { pFoldO := f, pStrictFirst := b } c := rfl

end Sys2Proof.Machine
end

