-- ==== Sys2Proof/Laws/State.lean ====
section
/-!
SUPPORT. One lemma per field per update of the state, each true by rfl and tagged simp: no later proof unfolds a
commit, the raising of an error, a host read or reset.
-/

namespace Sys2Proof.Machine

/-! ### commitBytes -/

@[simp] theorem commitBytes_lastCmd (bs : List Byte) (s : State) : (commitBytes bs s).lastCmd = s.lastCmd := rfl

@[simp] theorem commitBytes_status (bs : List Byte) (s : State) : (commitBytes bs s).status = 0x01#8 := rfl

@[simp] theorem commitBytes_outLen (bs : List Byte) (s : State) : (commitBytes bs s).outLen = BitVec.ofNat 8 bs.length := rfl

@[simp] theorem commitBytes_inLen (bs : List Byte) (s : State) : (commitBytes bs s).inLen = s.inLen := rfl

@[simp] theorem commitBytes_inInt (bs : List Byte) (s : State) : (commitBytes bs s).inInt = s.inInt := rfl

@[simp] theorem commitBytes_outInt (bs : List Byte) (s : State) : (commitBytes bs s).outInt = 0#64 := rfl

@[simp] theorem commitBytes_inBuf (bs : List Byte) (s : State) : (commitBytes bs s).inBuf = s.inBuf := rfl

@[simp] theorem commitBytes_outBuf (bs : List Byte) (s : State) : (commitBytes bs s).outBuf = padBuf bs := rfl

@[simp] theorem commitBytes_params (bs : List Byte) (s : State) : (commitBytes bs s).params = s.params := rfl

@[simp] theorem commitBytes_pending (bs : List Byte) (s : State) : (commitBytes bs s).pending = s.pending := rfl

@[simp] theorem commitBytes_replies (bs : List Byte) (s : State) : (commitBytes bs s).replies = s.replies := rfl

/-! ### commitInt -/

@[simp] theorem commitInt_lastCmd (w : BitVec 64) (s : State) : (commitInt w s).lastCmd = s.lastCmd := rfl

@[simp] theorem commitInt_status (w : BitVec 64) (s : State) : (commitInt w s).status = 0x01#8 := rfl

@[simp] theorem commitInt_outLen (w : BitVec 64) (s : State) : (commitInt w s).outLen = 0x00#8 := rfl

@[simp] theorem commitInt_inLen (w : BitVec 64) (s : State) : (commitInt w s).inLen = s.inLen := rfl

@[simp] theorem commitInt_inInt (w : BitVec 64) (s : State) : (commitInt w s).inInt = s.inInt := rfl

@[simp] theorem commitInt_outInt (w : BitVec 64) (s : State) : (commitInt w s).outInt = w := rfl

@[simp] theorem commitInt_inBuf (w : BitVec 64) (s : State) : (commitInt w s).inBuf = s.inBuf := rfl

@[simp] theorem commitInt_outBuf (w : BitVec 64) (s : State) : (commitInt w s).outBuf = zeroBuf := rfl

@[simp] theorem commitInt_params (w : BitVec 64) (s : State) : (commitInt w s).params = s.params := rfl

@[simp] theorem commitInt_pending (w : BitVec 64) (s : State) : (commitInt w s).pending = s.pending := rfl

@[simp] theorem commitInt_replies (w : BitVec 64) (s : State) : (commitInt w s).replies = s.replies := rfl

/-! ### commitNull -/

@[simp] theorem commitNull_lastCmd (s : State) : (commitNull s).lastCmd = s.lastCmd := rfl

@[simp] theorem commitNull_status (s : State) : (commitNull s).status = 0x02#8 := rfl

@[simp] theorem commitNull_outLen (s : State) : (commitNull s).outLen = 0x00#8 := rfl

@[simp] theorem commitNull_inLen (s : State) : (commitNull s).inLen = s.inLen := rfl

@[simp] theorem commitNull_inInt (s : State) : (commitNull s).inInt = s.inInt := rfl

@[simp] theorem commitNull_outInt (s : State) : (commitNull s).outInt = 0#64 := rfl

@[simp] theorem commitNull_inBuf (s : State) : (commitNull s).inBuf = s.inBuf := rfl

@[simp] theorem commitNull_outBuf (s : State) : (commitNull s).outBuf = zeroBuf := rfl

@[simp] theorem commitNull_params (s : State) : (commitNull s).params = s.params := rfl

@[simp] theorem commitNull_pending (s : State) : (commitNull s).pending = s.pending := rfl

@[simp] theorem commitNull_replies (s : State) : (commitNull s).replies = s.replies := rfl

/-! ### raiseError -/

@[simp] theorem raiseError_lastCmd (e : ErrorClass) (s : State) : (raiseError e s).lastCmd = s.lastCmd := rfl

@[simp] theorem raiseError_status (e : ErrorClass) (s : State) : (raiseError e s).status = statusByte (errorCode e) .error := rfl

@[simp] theorem raiseError_outLen (e : ErrorClass) (s : State) : (raiseError e s).outLen = 0x00#8 := rfl

@[simp] theorem raiseError_inLen (e : ErrorClass) (s : State) : (raiseError e s).inLen = s.inLen := rfl

@[simp] theorem raiseError_inInt (e : ErrorClass) (s : State) : (raiseError e s).inInt = s.inInt := rfl

@[simp] theorem raiseError_outInt (e : ErrorClass) (s : State) : (raiseError e s).outInt = 0#64 := rfl

@[simp] theorem raiseError_inBuf (e : ErrorClass) (s : State) : (raiseError e s).inBuf = s.inBuf := rfl

@[simp] theorem raiseError_outBuf (e : ErrorClass) (s : State) : (raiseError e s).outBuf = zeroBuf := rfl

@[simp] theorem raiseError_params (e : ErrorClass) (s : State) : (raiseError e s).params = s.params := rfl

@[simp] theorem raiseError_pending (e : ErrorClass) (s : State) : (raiseError e s).pending = s.pending := rfl

@[simp] theorem raiseError_replies (e : ErrorClass) (s : State) : (raiseError e s).replies = s.replies := rfl

/-! ### hostRead -/

@[simp] theorem hostRead_lastCmd (a : Addr) (s : State) : (hostRead a s).lastCmd = s.lastCmd := rfl

@[simp] theorem hostRead_status (a : Addr) (s : State) : (hostRead a s).status = s.status := rfl

@[simp] theorem hostRead_outLen (a : Addr) (s : State) : (hostRead a s).outLen = s.outLen := rfl

@[simp] theorem hostRead_inLen (a : Addr) (s : State) : (hostRead a s).inLen = s.inLen := rfl

@[simp] theorem hostRead_inInt (a : Addr) (s : State) : (hostRead a s).inInt = s.inInt := rfl

@[simp] theorem hostRead_outInt (a : Addr) (s : State) : (hostRead a s).outInt = s.outInt := rfl

@[simp] theorem hostRead_inBuf (a : Addr) (s : State) : (hostRead a s).inBuf = s.inBuf := rfl

@[simp] theorem hostRead_outBuf (a : Addr) (s : State) : (hostRead a s).outBuf = s.outBuf := rfl

@[simp] theorem hostRead_params (a : Addr) (s : State) : (hostRead a s).params = s.params := rfl

@[simp] theorem hostRead_pending (a : Addr) (s : State) : (hostRead a s).pending = s.pending := rfl

@[simp] theorem hostRead_replies (a : Addr) (s : State) : (hostRead a s).replies = s.replies ++ [memRead s a] := rfl

/-! ### resetRegisters -/

@[simp] theorem resetRegisters_lastCmd (s : State) : (resetRegisters s).lastCmd = 0x00#8 := rfl

@[simp] theorem resetRegisters_status (s : State) : (resetRegisters s).status = 0x00#8 := rfl

@[simp] theorem resetRegisters_outLen (s : State) : (resetRegisters s).outLen = 0x00#8 := rfl

@[simp] theorem resetRegisters_inLen (s : State) : (resetRegisters s).inLen = 0#32 := rfl

@[simp] theorem resetRegisters_inInt (s : State) : (resetRegisters s).inInt = 0#64 := rfl

@[simp] theorem resetRegisters_outInt (s : State) : (resetRegisters s).outInt = 0#64 := rfl

@[simp] theorem resetRegisters_inBuf (s : State) : (resetRegisters s).inBuf = zeroBuf := rfl

@[simp] theorem resetRegisters_outBuf (s : State) : (resetRegisters s).outBuf = zeroBuf := rfl

@[simp] theorem resetRegisters_params (s : State) : (resetRegisters s).params = s.params := rfl

@[simp] theorem resetRegisters_pending (s : State) : (resetRegisters s).pending = s.pending := rfl

@[simp] theorem resetRegisters_replies (s : State) : (resetRegisters s).replies = s.replies := rfl

/-! ### placeCommand -/

@[simp] theorem placeCommand_lastCmd (s : State) (w : Nat) : (placeCommand s w).lastCmd = s.lastCmd := rfl

@[simp] theorem placeCommand_status (s : State) (w : Nat) : (placeCommand s w).status = s.status := rfl

@[simp] theorem placeCommand_outLen (s : State) (w : Nat) : (placeCommand s w).outLen = s.outLen := rfl

@[simp] theorem placeCommand_inLen (s : State) (w : Nat) : (placeCommand s w).inLen = s.inLen := rfl

@[simp] theorem placeCommand_inInt (s : State) (w : Nat) : (placeCommand s w).inInt = s.inInt := rfl

@[simp] theorem placeCommand_outInt (s : State) (w : Nat) : (placeCommand s w).outInt = s.outInt := rfl

@[simp] theorem placeCommand_inBuf (s : State) (w : Nat) : (placeCommand s w).inBuf = s.inBuf := rfl

@[simp] theorem placeCommand_outBuf (s : State) (w : Nat) : (placeCommand s w).outBuf = s.outBuf := rfl

@[simp] theorem placeCommand_params (s : State) (w : Nat) : (placeCommand s w).params = s.params := rfl

@[simp] theorem placeCommand_pending (s : State) (w : Nat) : (placeCommand s w).pending = .wr 0x00#8 (BitVec.ofNat 8 w) :: s.pending := rfl

@[simp] theorem placeCommand_replies (s : State) (w : Nat) : (placeCommand s w).replies = s.replies := rfl

end Sys2Proof.Machine
end

