-- ==== Sys2Proof/Laws/Ops.lean ====
section
/-!
SUPPORT. The spec lemmas of the shared operations: what a commit writes and leaves, what a store changes, and the
address map over its ranges.
-/

namespace Sys2Proof.Machine

/-! ### Commit: the fields no outcome writes (R104) -/

@[simp] theorem commit_lastCmd (o : CommandOutcome) (s : State) : (commit o s).lastCmd = s.lastCmd := by
  cases o <;> rfl

@[simp] theorem commit_inLen (o : CommandOutcome) (s : State) : (commit o s).inLen = s.inLen := by
  cases o <;> rfl

@[simp] theorem commit_inInt (o : CommandOutcome) (s : State) : (commit o s).inInt = s.inInt := by
  cases o <;> rfl

@[simp] theorem commit_inBuf (o : CommandOutcome) (s : State) : (commit o s).inBuf = s.inBuf := by
  cases o <;> rfl

@[simp] theorem commit_params (o : CommandOutcome) (s : State) : (commit o s).params = s.params := by
  cases o <;> rfl

@[simp] theorem commit_pending (o : CommandOutcome) (s : State) : (commit o s).pending = s.pending := by
  cases o <;> rfl

@[simp] theorem commit_replies (o : CommandOutcome) (s : State) : (commit o s).replies = s.replies := by
  cases o <;> rfl

/-- The outputs of a commit depend on the outcome alone (R103): on no output the state held before. -/
theorem commit_outputs (o : CommandOutcome) (s u : State) :
    (commit o s).status = (commit o u).status ∧ (commit o s).outLen = (commit o u).outLen ∧
      (commit o s).outInt = (commit o u).outInt ∧ (commit o s).outBuf = (commit o u).outBuf := by
  cases o <;> exact ⟨rfl, rfl, rfl, rfl⟩

/-- Committing one outcome twice leaves what committing it once leaves. -/
theorem commit_commit (o : CommandOutcome) (s : State) : commit o (commit o s) = commit o s := by
  cases o <;> rfl

/-- OUT_BUF of a byte result, byte by byte (R103). -/
theorem padBuf_byte (bs : List Byte) (i : Fin 26) : (padBuf bs)[i.val] = bs.getD i.val 0x00#8 := by
  simp [padBuf]

/-- A buffer's first n bytes are its bytes. -/
theorem firstBytes_byte (n : Nat) (hn : n ≤ 26) (buf : Vector Byte 26) (i : Fin n) :
    (firstBytes n hn buf)[i.val] = buf[i.val]'(by omega) := by
  simp [firstBytes]

/-! ### Store: the fields no host write changes (R65, R66) -/

@[simp] theorem storeByte_lastCmd (a : Addr) (v : Byte) (s : State) : (storeByte a v s).lastCmd = s.lastCmd := by
  unfold storeByte; split <;> rfl

@[simp] theorem storeByte_status (a : Addr) (v : Byte) (s : State) : (storeByte a v s).status = s.status := by
  unfold storeByte; split <;> rfl

@[simp] theorem storeByte_outLen (a : Addr) (v : Byte) (s : State) : (storeByte a v s).outLen = s.outLen := by
  unfold storeByte; split <;> rfl

@[simp] theorem storeByte_outInt (a : Addr) (v : Byte) (s : State) : (storeByte a v s).outInt = s.outInt := by
  unfold storeByte; split <;> rfl

@[simp] theorem storeByte_outBuf (a : Addr) (v : Byte) (s : State) : (storeByte a v s).outBuf = s.outBuf := by
  unfold storeByte; split <;> rfl

@[simp] theorem storeByte_params (a : Addr) (v : Byte) (s : State) : (storeByte a v s).params = s.params := by
  unfold storeByte; split <;> rfl

@[simp] theorem storeByte_pending (a : Addr) (v : Byte) (s : State) : (storeByte a v s).pending = s.pending := by
  unfold storeByte; split <;> rfl

@[simp] theorem storeByte_replies (a : Addr) (v : Byte) (s : State) : (storeByte a v s).replies = s.replies := by
  unfold storeByte; split <;> rfl

/-! ### The address map over its ranges (R65) -/

theorem locate_inLen {a : Addr} (h : 0x04 ≤ a.toNat) (h' : a.toNat ≤ 0x07) :
    locate a = .inLen ⟨a.toNat - 0x04, by omega⟩ := by
  unfold locate
  simp only
  rw [if_neg (by omega), if_neg (by omega), if_neg (by omega), dif_pos ⟨h, h'⟩]

theorem locate_inInt {a : Addr} (h : 0x08 ≤ a.toNat) (h' : a.toNat ≤ 0x0F) :
    locate a = .inInt ⟨a.toNat - 0x08, by omega⟩ := by
  unfold locate
  simp only
  rw [if_neg (by omega), if_neg (by omega), if_neg (by omega), dif_neg (by omega), dif_pos ⟨h, h'⟩]

theorem locate_outInt {a : Addr} (h : 0x10 ≤ a.toNat) (h' : a.toNat ≤ 0x17) :
    locate a = .outInt ⟨a.toNat - 0x10, by omega⟩ := by
  unfold locate
  simp only
  rw [if_neg (by omega), if_neg (by omega), if_neg (by omega), dif_neg (by omega), dif_neg (by omega), dif_pos ⟨h, h'⟩]

theorem locate_inBuf {a : Addr} (h : 0x20 ≤ a.toNat) (h' : a.toNat ≤ 0x39) :
    locate a = .inBuf ⟨a.toNat - 0x20, by omega⟩ := by
  unfold locate
  simp only
  rw [if_neg (by omega), if_neg (by omega), if_neg (by omega), dif_neg (by omega), dif_neg (by omega),
    dif_neg (by omega), dif_pos ⟨h, h'⟩]

theorem locate_outBuf {a : Addr} (h : 0x40 ≤ a.toNat) (h' : a.toNat ≤ 0x59) :
    locate a = .outBuf ⟨a.toNat - 0x40, by omega⟩ := by
  unfold locate
  simp only
  rw [if_neg (by omega), if_neg (by omega), if_neg (by omega), dif_neg (by omega), dif_neg (by omega),
    dif_neg (by omega), dif_neg (by omega), dif_pos ⟨h, h'⟩]

/-- The address of a location (R65); a reserved address has none to give. -/
def addrOf : Location → Nat
  | .cmd => 0x00
  | .status => 0x01
  | .outLen => 0x02
  | .inLen i => 0x04 + i.val
  | .inInt i => 0x08 + i.val
  | .outInt i => 0x10 + i.val
  | .inBuf i => 0x20 + i.val
  | .outBuf i => 0x40 + i.val
  | .reserved => 0x100

/-- What lies at an address lies there and nowhere else. -/
theorem addrOf_locate (a : Addr) (h : locate a ≠ .reserved) : addrOf (locate a) = a.toNat := by
  revert h
  unfold locate
  simp only
  split_ifs <;> intro h <;> simp only [addrOf] <;> first | omega | exact absurd rfl h

/-- The map names each location at one address only. -/
theorem locate_inj {a b : Addr} (h : locate a = locate b) (hr : locate a ≠ .reserved) : a = b := by
  apply BitVec.eq_of_toNat_eq
  rw [← addrOf_locate a hr, ← addrOf_locate b (h ▸ hr), h]

end Sys2Proof.Machine
end

