-- ==== Sys2Proof/Laws/Exec.lean ====
section
/-!
SUPPORT. What a command and a step can do, said once: exec commits the outcome of its command, and a step is idle, a
read, a store, a command, or a reset. Every invariant is derived from these two.
-/

namespace Sys2Proof.Machine

/-- How a command ends: the case of R101, as the five families define it. -/
def outcomeOf (i : Instr) (s : State) : CommandOutcome :=
  match i with
  | .pack k => packOutcome k s
  | .unpack k => unpackOutcome k s
  | .encode k => encodeOutcome k s
  | .decode k => decodeOutcome k s
  | .extract k => extractOutcome k s

/-- Every command commits its outcome and answers a next state (R100). -/
theorem exec_eq_commit (i : Instr) (s : State) : exec i s = .next (commit (outcomeOf i s) s) := by
  cases i <;> rfl

theorem checkKind_null (e : Kind) (b : CommandOutcome) : checkKind e .null b = .null := by simp [checkKind]

theorem checkKind_expected {e k : Kind} (b : CommandOutcome) (h : k ≠ .null) (he : k = e) : checkKind e k b = b := by
  simp [checkKind, ← he, h]

theorem checkKind_wrong {e k : Kind} (b : CommandOutcome) (h : k ≠ .null) (he : k ≠ e) :
    checkKind e k b = .error .type := by
  simp [checkKind, h, he]

theorem checkLength_right {n : BitVec 32} {s : State} (b : CommandOutcome) (h : s.inLen = n) : checkLength n s b = b := by
  simp [checkLength, h]

theorem checkLength_wrong {n : BitVec 32} {s : State} (b : CommandOutcome) (h : s.inLen ≠ n) :
    checkLength n s b = .error .length := by
  simp [checkLength, h]

/-- The outcome of a well-typed command: its length check and its body (R101). -/
def typedOutcome (i : Instr) (s : State) : CommandOutcome :=
  match i with
  | .pack _ => .valueBytes (pack48 s.inInt).toList
  | .unpack _ => checkLength 6#32 s (.valueInt (unpack48 (operand6 s)))
  | .encode _ => checkLength 16#32 s (.valueBytes (encode26 (operand16 s)).toList)
  | .decode _ => checkLength 26#32 s (decodeBody s)
  | .extract _ => checkLength 16#32 s (.valueInt (unpack48 (operand6 s)))

/-- The kind a command's meaning runs its body for (R83). -/
def bodyKind : Instr → Kind
  | .pack _ => .integer
  | .unpack _ => .blob
  | .encode _ => .blob
  | .decode _ => .text
  | .extract _ => .blob

/-- Null first, then the kind, then the operation's own rule (R101, R214). -/
theorem outcomeOf_eq (i : Instr) (s : State) :
    outcomeOf i s =
      if i.kind = .null then .null else if i.kind = bodyKind i then typedOutcome i s else .error .type := by
  cases i <;> rfl

/-- DECODE's body fails with CONTENT or gives 16 bytes; it has no third outcome (R184, R185). -/
theorem decodeBody_cases (s : State) :
    (decodeBody s = .error .content ∧ decode26 s.params s.inBuf = none) ∨
      ∃ b, decodeBody s = .valueBytes b.toList ∧ decode26 s.params s.inBuf = some b := by
  unfold decodeBody
  split
  · rename_i h; exact .inl ⟨rfl, h⟩
  · rename_i b h; exact .inr ⟨b, rfl, h⟩

/-- Everything a well-typed command can end in: its value, with IN_LEN the required length, LENGTH, or CONTENT. -/
theorem typedOutcome_cases (i : Instr) (s : State) :
    (typedOutcome i s = .error .length) ∨
    (typedOutcome i s = .error .content ∧ ∃ k, i = .decode k) ∨
    (∃ b : Vector Byte 6, typedOutcome i s = .valueBytes b.toList ∧ ∃ k, i = .pack k) ∨
    (∃ b : Vector Byte 16, typedOutcome i s = .valueBytes (encode26 b).toList ∧ ∃ k, i = .encode k) ∨
    (∃ b : Vector Byte 16, typedOutcome i s = .valueBytes b.toList ∧ ∃ k, i = .decode k) ∨
    (∃ b : Vector Byte 6, typedOutcome i s = .valueInt (unpack48 b) ∧ ((∃ k, i = .unpack k) ∨ ∃ k, i = .extract k)) := by
  cases i with
  | pack k => exact .inr (.inr (.inl ⟨_, rfl, k, rfl⟩))
  | unpack k =>
    by_cases h : s.inLen = 6#32
    · exact .inr (.inr (.inr (.inr (.inr ⟨_, checkLength_right _ h, .inl ⟨k, rfl⟩⟩))))
    · exact .inl (checkLength_wrong _ h)
  | encode k =>
    by_cases h : s.inLen = 16#32
    · exact .inr (.inr (.inr (.inl ⟨_, checkLength_right _ h, k, rfl⟩)))
    · exact .inl (checkLength_wrong _ h)
  | decode k =>
    by_cases h : s.inLen = 26#32
    · have hc : typedOutcome (.decode k) s = decodeBody s := checkLength_right _ h
      rcases decodeBody_cases s with ⟨hb, -⟩ | ⟨b, hb, -⟩
      · exact .inr (.inl ⟨hc.trans hb, k, rfl⟩)
      · exact .inr (.inr (.inr (.inr (.inl ⟨b, hc.trans hb, k, rfl⟩))))
    · exact .inl (checkLength_wrong _ h)
  | extract k =>
    by_cases h : s.inLen = 16#32
    · exact .inr (.inr (.inr (.inr (.inr ⟨_, checkLength_right _ h, .inr ⟨k, rfl⟩⟩))))
    · exact .inl (checkLength_wrong _ h)

/-- The outcome of a command does not depend on LAST_CMD, an output register, or the host's events (R36, R105). -/
theorem outcomeOf_congr (i : Instr) {s u : State} (hl : s.inLen = u.inLen) (hi : s.inInt = u.inInt)
    (hb : s.inBuf = u.inBuf) (hp : s.params = u.params) : outcomeOf i s = outcomeOf i u := by
  cases i with
  | pack k =>
    show packOutcome k s = packOutcome k u
    unfold packOutcome
    rw [hi]
  | unpack k =>
    show unpackOutcome k s = unpackOutcome k u
    unfold unpackOutcome checkLength operand6
    rw [hl, hb]
  | encode k =>
    show encodeOutcome k s = encodeOutcome k u
    unfold encodeOutcome checkLength operand16
    rw [hl, hb]
  | decode k =>
    show decodeOutcome k s = decodeOutcome k u
    unfold decodeOutcome checkLength decodeBody
    rw [hl, hb, hp]
  | extract k =>
    show extractOutcome k s = extractOutcome k u
    unfold extractOutcome checkLength operand6
    rw [hl, hb]

/-- What a write of `c` to 0x00 commits: the command's outcome, or ILLEGAL_COMMAND (R100, R215). -/
def commandOutcome (c : Byte) (s : State) : CommandOutcome :=
  match decode c with
  | .ok i => outcomeOf i s
  | .error _ => .error .illegalCommand

/-- The outcome of a command byte depends on the inputs and the parameters alone (R105). -/
theorem commandOutcome_congr (c : Byte) {s u : State} (hl : s.inLen = u.inLen) (hi : s.inInt = u.inInt)
    (hb : s.inBuf = u.inBuf) (hp : s.params = u.params) : commandOutcome c s = commandOutcome c u := by
  unfold commandOutcome
  cases decode c with
  | ok i => exact outcomeOf_congr i hl hi hb hp
  | error e => rfl

/-- A command byte, legal or not, sets LAST_CMD and commits one outcome, computed from the state before (R100). -/
theorem runCommand_eq (c : Byte) (s : State) :
    runCommand c s = .next (commit (commandOutcome c s) { s with lastCmd := c }) := by
  unfold runCommand commandOutcome
  cases decode c with
  | ok i =>
    simp only [exec_eq_commit]
    rw [outcomeOf_congr i (s := { s with lastCmd := c }) (u := s) rfl rfl rfl rfl]
  | error e => rfl

/-- The step of an event: a read, a store, a command, or a reset, performed on the state without that event. -/
theorem step_cons {s : State} {e : HostEvent} {rest : List HostEvent} (h : s.pending = e :: rest) :
    step s = performEvent e { s with pending := rest } := by
  simp [step, takeEvent, h]

/-- Everything a step can do (R7, R66, R100, R240): stay, with no event pending; drive a byte; store a byte; commit a
command's outcome with its byte in LAST_CMD; reset the registers. -/
theorem step_cases {s t : State} (h : step s = .next t) :
    (s.pending = [] ∧ t = s) ∨
    (∃ a rest, s.pending = .rd a :: rest ∧ t = hostRead a { s with pending := rest }) ∨
    (∃ a v rest, s.pending = .wr a v :: rest ∧ a ≠ 0x00#8 ∧ t = storeByte a v { s with pending := rest }) ∨
    (∃ c rest, s.pending = .wr 0x00#8 c :: rest ∧
      t = commit (commandOutcome c { s with pending := rest }) { s with lastCmd := c, pending := rest }) ∨
    (∃ rest, s.pending = .reset :: rest ∧ t = resetRegisters { s with pending := rest }) := by
  cases hp : s.pending with
  | nil =>
    simp only [step, takeEvent, hp] at h
    cases h
    exact .inl ⟨rfl, rfl⟩
  | cons e rest =>
    rw [step_cons hp] at h
    cases e with
    | rd a =>
      cases h
      exact .inr (.inl ⟨a, rest, rfl, rfl⟩)
    | wr a v =>
      simp only [performEvent, hostWrite] at h
      split at h
      · rename_i ha
        subst ha
        rw [runCommand_eq] at h
        cases h
        exact .inr (.inr (.inr (.inl ⟨v, rest, rfl, rfl⟩)))
      · rename_i ha
        cases h
        exact .inr (.inr (.inl ⟨a, v, rest, rfl, ha, rfl⟩))
    | reset =>
      cases h
      exact .inr (.inr (.inr (.inr ⟨rest, rfl, rfl⟩)))

end Sys2Proof.Machine
end

