-- ==== Sys2Proof/Laws/PerInstr.lean ====
section
/-!
SUPPORT. Facts said of every command as syntax, one lemma per constructor. EncodedLegal: the encoding of a command is
a legal byte, with RSV 0 and the command's own OP and KIND codes in their fields (30_encoding.md R80–R84).
-/

namespace Sys2Proof.Laws.EncodedLegal

/-- The byte of a command is legal (R84), and its three fields are RSV 0, the kind's code and the operation's (R80). -/
def Statement (i : Instr) : Prop :=
  legalByte (encode i) = true ∧ rsvField (encode i) = 0#1 ∧ kindField (encode i) = kindCode i.kind ∧
    opField (encode i) = opCode i

theorem pack (k : Kind) : Statement (.pack k) := by cases k <;> exact ⟨rfl, rfl, rfl, rfl⟩

theorem unpack (k : Kind) : Statement (.unpack k) := by cases k <;> exact ⟨rfl, rfl, rfl, rfl⟩

theorem encode (k : Kind) : Statement (.encode k) := by cases k <;> exact ⟨rfl, rfl, rfl, rfl⟩

theorem decode (k : Kind) : Statement (.decode k) := by cases k <;> exact ⟨rfl, rfl, rfl, rfl⟩

theorem extract (k : Kind) : Statement (.extract k) := by cases k <;> exact ⟨rfl, rfl, rfl, rfl⟩

end Sys2Proof.Laws.EncodedLegal
end

