-- ==== Sys2Proof/Laws/Run.lean ====
section
/-!
SUPPORT. Runs of several host events: the step of each kind of event in one equation, and runs put one after another.
-/

namespace Sys2Proof.Machine

theorem step_read {s : State} {a : Addr} {rest : List HostEvent} (h : s.pending = .rd a :: rest) :
    step s = .next (hostRead a { s with pending := rest }) := by
  rw [step_cons h]; rfl

theorem step_store {s : State} {a : Addr} {v : Byte} {rest : List HostEvent} (h : s.pending = .wr a v :: rest)
    (ha : a ≠ 0x00#8) : step s = .next (storeByte a v { s with pending := rest }) := by
  rw [step_cons h]
  simp only [performEvent, hostWrite, if_neg ha]

theorem step_command {s : State} {c : Byte} {rest : List HostEvent} (h : s.pending = .wr 0x00#8 c :: rest) :
    step s = .next (commit (commandOutcome c { s with pending := rest }) { s with lastCmd := c, pending := rest }) := by
  rw [step_cons h]
  simp only [performEvent, hostWrite, if_true, runCommand_eq]

theorem step_reset {s : State} {rest : List HostEvent} (h : s.pending = .reset :: rest) :
    step s = .next (resetRegisters { s with pending := rest }) := by
  rw [step_cons h]; rfl

@[simp] theorem core_step : core.step = step := rfl

/-- One more step in front of a run. -/
theorem run_succ {s t : State} (k : Nat) (h : step s = .next t) : Host.Core.run core (k + 1) s = Host.Core.run core k t := by
  simp [Host.Core.run, h]

/-- A run of `m + n` steps is a run of `m` and then a run of `n`. -/
theorem run_add {s t : State} (m n : Nat) (h : Host.Core.run core m s = .next t) :
    Host.Core.run core (m + n) s = Host.Core.run core n t := by
  induction m generalizing s with
  | zero =>
    simp only [Host.Core.run] at h
    cases h
    simp
  | succ m ih =>
    rw [show m + 1 + n = (m + n) + 1 by omega]
    simp only [Host.Core.run, core_step] at h ⊢
    cases hs : step s with
    | next u =>
      rw [hs] at h
      exact ih h
    | fault r => rw [hs] at h; cases h
    | refused r => rw [hs] at h; cases h

end Sys2Proof.Machine
end

