-- ==== Sys2Proof/Tests/Slice0.lean ====
section
/-!
SUPPORT. The model's own tests. Expected results come from 95_test_vectors.md and the encoding tables of
30_encoding.md, never from the model. After them one witness for every statement that has hypotheses: a concrete
state and operands that meet them all.
-/

namespace Sys2Proof.Tests

open Sys2Proof.Machine Sys2Proof.Claims Sys2Proof.Safety

/-! ### Small states -/

/-- A buffer that starts with the given bytes. -/
def buf (bytes : List Nat) : Vector Byte 26 := Vector.ofFn fun i => BitVec.ofNat 8 (bytes.getD i.val 0)

/-- The ASCII bytes of a text. -/
def ascii (text : String) : List Nat := text.toList.map Char.toNat

/-- From reset, an operand in the buffer and its length. -/
def given (len : Nat) (bytes : List Nat) : State := { State.reset with inLen := BitVec.ofNat 32 len, inBuf := buf bytes }

/-- From reset, an integer operand. -/
def givenInt (x : Nat) : State := { State.reset with inInt := BitVec.ofNat 64 x }

/-- The same state with host events pending. -/
def pend (s : State) (events : List HostEvent) : State := { s with pending := events }

/-- What a step or command left: STATUS, OUT_LEN, OUT_INT and the front of OUT_BUF. -/
def left (n : Nat) (o : Host.Outcome State Fault Refusal) : Option (Nat × Nat × Nat × List Nat) :=
  match o with
  | .next t => some (t.status.toNat, t.outLen.toNat, t.outInt.toNat, (t.outBuf.toList.take n).map BitVec.toNat)
  | .fault _ => none
  | .refused _ => none

/-- The replies after `k` host events. -/
def repliesAfter (k : Nat) (s : State) : Option (List Nat) :=
  match Host.Core.run core k s with
  | .next t => some (t.replies.map BitVec.toNat)
  | .fault _ => none
  | .refused _ => none

/-! ### Well-formedness: an ill-formed line for each check of R84–R86 -/

theorem test_wf_rawByte_refuses_legal_byte : (HostLine.rawByte 0x43#8).wf = false := by decide
theorem test_wf_wrBuf_refuses_27_bytes : (HostLine.wrBuf (List.replicate 27 0#8)).wf = false := by decide
theorem test_wf_rdBuf_refuses_27 : (HostLine.rdBuf 27).wf = false := by decide
theorem test_wf_operandBlob_refuses_27_bytes : (HostLine.operandBlob (List.replicate 27 0#8)).wf = false := by decide
theorem test_wf_operandText_refuses_27_bytes : (HostLine.operandText (List.replicate 27 0#8)).wf = false := by decide
theorem test_legalByte_refuses_each_field :
    legalByte 0x81#8 = false ∧ legalByte 0x10#8 = false ∧ legalByte 0x16#8 = false ∧ legalByte 0x51#8 = false := by
  decide

/-! ### Decoding: bytes written out from R80–R82, RSV KIND OP -/

theorem test_decode_pack_int : decode (0b0_001_0001#8) = .ok (.pack .integer) := rfl
theorem test_decode_unpack_blob : decode (0b0_100_0010#8) = .ok (.unpack .blob) := rfl
theorem test_decode_encode_other : decode (0b0_010_0011#8) = .ok (.encode .other) := rfl
theorem test_decode_decode_text : decode (0b0_011_0100#8) = .ok (.decode .text) := rfl
theorem test_decode_extract_null : decode (0b0_000_0101#8) = .ok (.extract .null) := rfl
theorem test_decode_rsv : decode (0b1_100_0011#8) = .error .reservedBitSet := rfl
theorem test_decode_kind5 : decode (0b0_101_0011#8) = .error .illegalKind := rfl
theorem test_decode_op6 : decode (0b0_000_0110#8) = .error .illegalOp := rfl

/-- The table of R84, row by row. -/
theorem test_encode_table_of_legal_bytes :
    [Instr.pack, Instr.unpack, Instr.encode, Instr.decode, Instr.extract].map
        (fun mk => [Kind.null, Kind.integer, Kind.other, Kind.text, Kind.blob].map fun k => (encode (mk k)).toNat) =
      [[0x01, 0x11, 0x21, 0x31, 0x41], [0x02, 0x12, 0x22, 0x32, 0x42], [0x03, 0x13, 0x23, 0x33, 0x43],
       [0x04, 0x14, 0x24, 0x34, 0x44], [0x05, 0x15, 0x25, 0x35, 0x45]] := by decide

/-- The example of R85. -/
theorem test_asm_encode_blob : (Instr.encode .blob).asm = "ENCODE.blob" := by decide

/-! ### The commands: vectors of 95_test_vectors.md section 2 -/

/-- D-PACK-6: bits 63:48 are discarded. -/
theorem test_pack_discards_high_bits :
    left 7 (exec (.pack .integer) (givenInt 0xFFFF0123456789AB)) = some (0x01, 6, 0, [0x01, 0x23, 0x45, 0x67, 0x89, 0xAB, 0]) := by
  decide

/-- D-PACK-10: the null short-circuit. -/
theorem test_pack_null : left 6 (exec (.pack .null) (givenInt 5)) = some (0x02, 0, 0, [0, 0, 0, 0, 0, 0]) := by decide

/-- D-UNPACK-3. -/
theorem test_unpack_distinct_bytes :
    left 1 (exec (.unpack .blob) (given 6 [0x01, 0x23, 0x45, 0x67, 0x89, 0xAB])) = some (0x01, 0, 0x0123456789AB, [0]) := by
  decide

/-- D-UNPACK-9: a saturated length. -/
theorem test_unpack_saturated_length :
    left 1 (exec (.unpack .blob) (given 4294967295 [0x01, 0x23, 0x45, 0x67, 0x89, 0xAB])) = some (0x0B, 0, 0, [0]) := by
  decide

/-- D-ENC-13. -/
theorem test_encode_pseudo_random :
    left 26 (exec (.encode .blob) (given 16
        [0xA5, 0x4D, 0xCA, 0x18, 0x25, 0x30, 0xBB, 0x1D, 0x6D, 0x13, 0x2C, 0xDE, 0xD6, 0x23, 0x7B, 0x2E])) =
      some (0x01, 26, 0, ascii "559Q51G99GQCEPT4SCVVB26YSE") := by decide

/-- D-ENC-24: TYPE wins over LENGTH. -/
theorem test_encode_text_wrong_length : left 1 (exec (.encode .text) (given 15 [])) = some (0x07, 0, 0, [0]) := by decide

/-- D-DEC-10: mixed symbols in lower case. -/
theorem test_decode_lower_case :
    left 16 (exec (.decode .text) (given 26 (ascii "01arz3ndektsv4rrffq69g5fav"))) =
      some (0x01, 16, 0, [0x01, 0x56, 0x3E, 0x3A, 0xB5, 0xD3, 0xD6, 0x76, 0x4C, 0x61, 0xEF, 0xB9, 0x93, 0x02, 0xBD, 0x5B]) := by
  decide

/-- D-DEC-20: U is INVALID. -/
theorem test_decode_u_is_content :
    left 16 (exec (.decode .text) (given 26 (ascii "0000000000000000000000000U"))) = some (0x0F, 0, 0, List.replicate 16 0) := by
  decide

/-- D-EXT-3: the randomness bytes are not read. -/
theorem test_extract_ignores_randomness :
    left 1 (exec (.extract .blob) (given 16 ([0x01, 0x8B, 0x6F, 0x2A, 0x5C, 0x00] ++ List.replicate 10 0xAA))) =
      some (0x01, 0, 0x018B6F2A5C00, [0]) := by decide

/-- D-EXT-6: an UNPACK operand is no EXTRACT operand. -/
theorem test_extract_length_6 : left 1 (exec (.extract .blob) (given 6 [])) = some (0x0B, 0, 0, [0]) := by decide

/-- D-DEC-4: a first symbol 8 under the default keeps its low three bits (90_conflicts.md C8). -/
theorem test_decode26_first_symbol_8_permissive :
    decode26 Config.Params.default (buf (ascii "8ZZZZZZZZZZZZZZZZZZZZZZZZZ")) =
      some (Vector.ofFn fun j => if j.val = 0 then 0x1F#8 else 0xFF#8) := by decide

/-- D-DEC-5: the same text under P_STRICT_FIRST. -/
theorem test_decode26_first_symbol_8_strict :
    decode26 { pFoldO := false, pStrictFirst := true } (buf (ascii "8ZZZZZZZZZZZZZZZZZZZZZZZZZ")) = none := by decide

/-- D-DEC-16 and D-DEC-18: O under both values of P_FOLD_O. -/
theorem test_decode26_fold_o :
    decode26 Config.Params.default (buf (ascii "0000000000000000000000000O")) = none ∧
    decode26 { pFoldO := true, pStrictFirst := false } (buf (ascii "0000000000000000000000000O")) =
      some (Vector.replicate 16 0#8) := by decide

/-! ### The bus: vectors of 95_test_vectors.md sections 2.6 and 2.7 -/

/-- D-CMD-8: RSV set on the bits of ENCODE.blob; LAST_CMD reads back. -/
theorem test_illegal_byte_reads_back :
    repliesAfter 3 (pend (given 16 []) [.wr 0x00#8 0xC3#8, .rd 0x01#8, .rd 0x00#8]) = some [0x17, 0xC3] := by decide

/-- D-BUS-1, D-BUS-3, D-BUS-4: read-only registers. -/
theorem test_read_only_writes_ignored :
    repliesAfter 6 (pend State.reset
      [.wr 0x01#8 0xFF#8, .rd 0x01#8, .wr 0x17#8 0x55#8, .rd 0x17#8, .wr 0x40#8 0x41#8, .rd 0x40#8]) = some [0, 0, 0] := by
  decide

/-- D-BUS-5, D-BUS-6, D-BUS-7: reserved addresses. -/
theorem test_reserved_addresses_read_zero :
    repliesAfter 6 (pend State.reset
      [.wr 0x03#8 0x77#8, .rd 0x03#8, .wr 0x3A#8 0x77#8, .rd 0x3A#8, .wr 0xFF#8 0x77#8, .rd 0xFF#8]) = some [0, 0, 0] := by
  decide

/-- D-BUS-8, D-BUS-9, D-BUS-10: input registers read back byte by byte. -/
theorem test_input_bytes_read_back :
    repliesAfter 7 (pend State.reset
      [.wr 0x07#8 0x10#8, .wr 0x06#8 0x01#8, .rd 0x06#8, .wr 0x39#8 0x5A#8, .rd 0x39#8, .wr 0x08#8 0x80#8, .rd 0x08#8]) =
      some [0x01, 0x5A, 0x80] := by decide

/-- R240: reset clears what a command left, and its inputs, and keeps the parameters. -/
theorem test_reset_clears :
    step (pend { givenInt 7 with status := 0x17#8, params := { pFoldO := true, pStrictFirst := true } } [.reset]) =
      .next { State.reset with params := { pFoldO := true, pStrictFirst := true } } := rfl

/-- The host's reading of the opcode table: every row's match word is its command of kind NULL. -/
theorem test_table_words :
    [0x01, 0x02, 0x03, 0x04, 0x05].map (decodeTableWord 8) =
      [some (.pack .null), some (.unpack .null), some (.encode .null), some (.decode .null), some (.extract .null)] := by
  decide

/-! ### Witnesses: the hypotheses of every statement can be met -/

/-- A lower-case text of the alphabet, its first symbol 0. -/
def okText : State := given 26 (ascii "01arz3ndektsv4rrffq69g5fav")

/-- Its symbols. -/
def okSymbols : Fin 26 → Symbol := fun k => (decTable Config.Params.default okText.inBuf[k.val]).getD 0#5

/-- A state a command has run in: every output register in use. -/
def used : State :=
  { given 16 [1, 2, 3] with lastCmd := 0x11#8, status := 0x01#8, outLen := 6#8, outBuf := buf [9, 9, 9, 9, 9, 9] }

theorem witness_ResetEventSetsEveryRegister : (pend used [.reset, .rd 0#8]).pending = .reset :: [.rd 0#8] := rfl

/-- At every address exactly one part of the map applies, and the ranges meet at these addresses. -/
theorem witness_RegisterMapReadsAndIgnoredWrites :
    (∀ a : Addr, (decide (a.toNat = 0x00)).toNat + (writable a).toNat + (readOnly a).toNat + (reservedAddr a).toNat = 1) ∧
    [0x04#8, 0x07#8, 0x08#8, 0x0F#8, 0x20#8, 0x39#8].all writable = true ∧
    [0x01#8, 0x02#8, 0x10#8, 0x17#8, 0x40#8, 0x59#8].all readOnly = true ∧
    [0x03#8, 0x18#8, 0x1F#8, 0x3A#8, 0x3F#8, 0x5A#8, 0xFF#8].all reservedAddr = true ∧
    (pend used [.wr 0x59#8 1#8]).pending = .wr 0x59#8 1#8 :: [] := by decide

theorem witness_HostWriteStoresOneByteOnly :
    (pend used [.wr 0x39#8 1#8]).pending = .wr 0x39#8 1#8 :: [] ∧ (0x39#8 : Addr) ≠ 0x00#8 ∧
    (pend used [.wr 0xFF#8 1#8]).pending = .wr 0xFF#8 1#8 :: [] ∧ (0xFF#8 : Addr) ≠ 0x00#8 := by decide

theorem witness_HostReadChangesNoRegister : (pend used [.rd 0x59#8]).pending = .rd 0x59#8 :: [] := rfl

theorem witness_NoEventNoChange : used.pending = [] := rfl

theorem witness_DecodeInvertsEncode : (Instr.decode .text).wf = true := rfl

theorem witness_ExactlyTwentyFiveBytesAreLegal :
    (pend used [.wr 0x00#8 0x46#8]).pending = .wr 0x00#8 0x46#8 :: [] ∧ legalByte 0x46#8 = false := by decide

theorem witness_WritePseudoInstructionsSetTheirRegister :
    (pend used (lineEvents (.wrLen 26#32) ++ [.rd 0#8])).pending = lineEvents (.wrLen 26#32) ++ [.rd 0#8] ∧
    (pend used (lineEvents (.wrInt 5#64))).pending = lineEvents (.wrInt 5#64) ++ [] ∧
    (pend used (lineEvents (.wrBuf (List.replicate 26 7#8)))).pending = lineEvents (.wrBuf (List.replicate 26 7#8)) ++ [] ∧
    (pend used (lineEvents (.operandBlob []))).pending = lineEvents (.operandBlob []) ++ [] ∧
    (pend used (lineEvents (.operandText (List.replicate 26 7#8)))).pending =
      lineEvents (.operandText (List.replicate 26 7#8)) ++ [] ∧
    (List.replicate 26 7#8).length ≤ 26 := by decide

theorem witness_ReadPseudoInstructionsReadTheirRegister :
    (pend used (lineEvents .rdInt)).pending = lineEvents .rdInt ++ [] ∧
    (pend used (lineEvents (.rdBuf 26))).pending = lineEvents (.rdBuf 26) ++ [] ∧ 26 ≤ 26 ∧
    (pend used (lineEvents .rdSt)).pending = lineEvents .rdSt ++ [] := by decide

theorem witness_StepRunsTheDecodedCommand :
    (pend okText [.wr 0x00#8 0x34#8]).pending = .wr 0x00#8 0x34#8 :: [] ∧ decode 0x34#8 = .ok (.decode .text) := ⟨rfl, rfl⟩

theorem witness_PlacedCommandIsTheNextStep : decodeTableWord 8 0x45 = some (.extract .blob) := by decide

/-- One byte and state for each clause of the priority list, in its order; the last two clauses are its VALUE for
PACK and for a text. -/
theorem witness_OutcomePriority :
    legalByte 0x80#8 = false ∧
    (legalByte 0x04#8 = true ∧ (0x04#8 : Byte).toNat / 16 % 8 = 0) ∧
    (legalByte 0x44#8 = true ∧ (0x44#8 : Byte).toNat / 16 % 8 = 4 ∧ (0x44#8 : Byte).toNat % 16 = 4) ∧
    (legalByte 0x34#8 = true ∧ (0x34#8 : Byte).toNat / 16 % 8 = 3 ∧ (given 25 []).inLen.toNat ≠ 26) ∧
    ((given 26 (ascii "0000000000000000000000000U")).inLen.toNat = 26 ∧
      contentFails (given 26 (ascii "0000000000000000000000000U"))) ∧
    (legalByte 0x11#8 = true ∧ (0x11#8 : Byte).toNat / 16 % 8 = 1 ∧ (0x11#8 : Byte).toNat % 16 = 1) ∧
    (okText.inLen.toNat = 26 ∧ ¬ contentFails okText) := by
  refine ⟨by decide, by decide, by decide, by decide, ⟨by decide, .inl ⟨25, by decide⟩⟩, by decide, by decide, ?_⟩
  rintro (⟨k, hk⟩ | ⟨hs, -⟩)
  · have : ∀ k : Fin 26, decTable okText.params okText.inBuf[k.val] ≠ none := by decide
    exact this k hk
  · exact absurd hs (by decide)

theorem witness_IllegalByteRaisesIllegalCommand :
    (pend used [.wr 0x00#8 0xFF#8]).pending = .wr 0x00#8 0xFF#8 :: [] ∧ legalByte 0xFF#8 = false := by decide

theorem witness_NullOperandGivesNullResult :
    (Instr.decode .null).kind = .null ∧ ∃ t, exec (.decode .null) used = .next t ∧ t.status = 0x02#8 :=
  ⟨rfl, _, rfl, by decide⟩

theorem witness_WrongKindRaisesType :
    ((Instr.decode .blob).kind ≠ .null ∧ (Instr.decode .blob).kind ≠ expectedKind (.decode .blob)) ∧
    ∃ t, exec (.decode .blob) used = .next t ∧ t.status = 0x07#8 :=
  ⟨by decide, _, rfl, by decide⟩

theorem witness_WrongLengthRaisesLength :
    ((Instr.unpack .blob).kind = expectedKind (.unpack .blob) ∧ requiredLength (.unpack .blob) = some 6 ∧
      (given 7 []).inLen.toNat ≠ 6) ∧
    ∃ t, exec (.unpack .blob) (given 7 []) = .next t ∧ t.status = 0x0B#8 :=
  ⟨by decide, _, rfl, by decide⟩

/-- A bad character, and a first symbol 8 under P_STRICT_FIRST. -/
theorem witness_BadContentRaisesContent :
    ((given 26 (ascii "U0000000000000000000000000")).inLen = 26#32 ∧
      contentFails (given 26 (ascii "U0000000000000000000000000"))) ∧
    contentFails { given 26 (ascii "80000000000000000000000000") with params := { pFoldO := false, pStrictFirst := true } } ∧
    ∃ t, exec (.decode .text) (given 26 (ascii "U0000000000000000000000000")) = .next t ∧ t.status = 0x0F#8 :=
  ⟨⟨by decide, .inl ⟨0, by decide⟩⟩, .inr ⟨by decide, 8#5, by decide, by decide⟩, _, rfl, by decide⟩

theorem witness_FailureClearsOutputs :
    (pend used [.wr 0x00#8 0x45#8]).pending = .wr 0x00#8 0x45#8 :: [] ∧
    ∃ t, step (pend (given 15 []) [.wr 0x00#8 0x45#8]) = .next t ∧ resultField t.status = 3#2 :=
  ⟨rfl, _, rfl, by decide⟩

theorem witness_CommandsNeverWriteInputs :
    (pend used [.wr 0x00#8 0x11#8]).pending = .wr 0x00#8 0x11#8 :: [] ∧
    ∃ t, step (pend used [.wr 0x00#8 0x11#8]) = .next t :=
  ⟨rfl, _, rfl⟩

theorem witness_CommandFrame :
    (∃ t, exec (.encode .blob) used = .next t) ∧ readOnly 0x00#8 = false ∧ readOnly 0x03#8 = false ∧
    readOnly 0x0F#8 = false ∧ readOnly 0x18#8 = false ∧ readOnly 0x3F#8 = false ∧ readOnly 0x5A#8 = false :=
  ⟨⟨_, rfl⟩, by decide⟩

/-- Two states with the same inputs, one of which has run a command. -/
theorem witness_OutcomeDependsOnInputsOnly :
    let s := pend used [.wr 0x00#8 0x43#8]
    let s' := pend (given 16 [1, 2, 3]) [.wr 0x00#8 0x43#8, .rd 0x40#8]
    s.pending = .wr 0x00#8 0x43#8 :: [] ∧ s'.pending = .wr 0x00#8 0x43#8 :: [.rd 0x40#8] ∧
    s.inLen = s'.inLen ∧ s.inInt = s'.inInt ∧ s.inBuf = s'.inBuf ∧ s.params = s'.params ∧ s ≠ s' ∧
    (∃ t, step s = .next t) ∧ ∃ t', step s' = .next t' :=
  ⟨rfl, rfl, rfl, rfl, rfl, rfl, by decide, ⟨_, rfl⟩, _, rfl⟩

/-- Pairs of states that differ only in what each command does not read; the last pair differs in a whole operand of
the wrong length. -/
theorem witness_CommandsReadOnlyTheirOperand :
    (∃ t t', exec (.pack .integer) (given 16 [1]) = .next t ∧ exec (.pack .integer) (given 26 [2]) = .next t' ∧
      (given 16 [1]).inInt = (given 26 [2]).inInt) ∧
    (∀ k : Fin 26, k.val < 6 → (given 6 [1, 2, 3, 4, 5, 6, 7]).inBuf[k.val] = (given 6 [1, 2, 3, 4, 5, 6]).inBuf[k.val]) ∧
    (∀ k : Fin 26, k.val < 16 →
      (given 16 (List.replicate 17 1)).inBuf[k.val] = (given 16 (List.replicate 16 1)).inBuf[k.val]) ∧
    (given 25 [1]).inLen = (given 25 [2]).inLen ∧ (given 25 [1]).inLen ≠ 26#32 ∧ (given 25 [1]).inBuf ≠ (given 25 [2]).inBuf :=
  ⟨⟨_, _, rfl, rfl, rfl⟩, by decide, by decide, by decide, by decide, by decide⟩

theorem witness_ResultStaysUntilCommandOrReset :
    (pend used [.wr 0x01#8 0xFF#8]).pending = .wr 0x01#8 0xFF#8 :: [] ∧ isCommand (.wr 0x01#8 0xFF#8) = false ∧
    HostEvent.wr 0x01#8 0xFF#8 ≠ .reset ∧ ∃ t, step (pend used [.wr 0x01#8 0xFF#8]) = .next t :=
  ⟨rfl, by decide, by decide, _, rfl⟩

theorem witness_NoneIsOnlyTheEffectOfReset :
    (isCommand (.wr 0x00#8 0x01#8) = true ∧ ∃ t, step (pend used [.wr 0x00#8 0x01#8]) = .next t) ∧
    (∃ t, step (pend used [.reset]) = .next t ∧ resultField t.status = 0#2) :=
  ⟨⟨rfl, _, rfl⟩, _, rfl, by decide⟩

theorem witness_ParametersNeverChange : ∃ t, step (pend used [.reset]) = .next t := ⟨_, rfl⟩

/-- Both sides of UNPACK's length. -/
theorem witness_UnpackWritesTheInteger : (given 6 []).inLen = 6#32 ∧ (given 5 []).inLen ≠ 6#32 := by decide

/-- Both sides of EXTRACT's length. -/
theorem witness_ExtractWritesTheTimestamp : used.inLen = 16#32 ∧ (given 6 []).inLen ≠ 16#32 := by decide

/-- Both sides of ENCODE's length. -/
theorem witness_EncodeWritesTheText : used.inLen = 16#32 ∧ (given 17 []).inLen ≠ 16#32 := by decide

/-- A valid text, an invalid one, and a wrong length. -/
theorem witness_DecodeWritesTheBytes :
    (okText.inLen = 26#32 ∧ (∀ k : Fin 26, decTable okText.params okText.inBuf[k.val] = some (okSymbols k)) ∧
      (okText.params.pStrictFirst = true → (okSymbols 0).toNat ≤ 7)) ∧
    contentFails (given 26 (ascii "0000000000000000000000000U")) ∧ (given 27 []).inLen ≠ 26#32 :=
  ⟨by decide, .inl ⟨25, by decide⟩, by decide⟩

theorem witness_PackedTimestampsSortByTime :
    (0xFFFFFFFFFFFE#64).toNat < 2 ^ 48 ∧ (0xFFFFFFFFFFFF#64).toNat < 2 ^ 48 := by decide

theorem witness_ExtractRecoversThePackedTimestamp :
    let s := given 16 ([0xFF, 0xFF, 0xFF, 0xFF, 0xFF, 0xFF] ++ List.replicate 10 7)
    s.inLen = 16#32 ∧ (0xFFFFFFFFFFFF#64).toNat < 2 ^ 48 ∧
      ∀ i : Fin 6, s.inBuf[i.val] = (pack48 0xFFFFFFFFFFFF#64)[i.val] := by decide

theorem witness_EncodeInvertsDecodeUpToCase :
    (∀ k : Fin 26, ∃ v : Symbol, okText.inBuf[k.val] = encChar v ∨
      (10 ≤ v.toNat ∧ okText.inBuf[k.val] = encChar v + 0x20#8)) ∧
    ∀ v, decTable Config.Params.default okText.inBuf[0] = some v → v.toNat ≤ 7 := by
  have h : ∀ k : Fin 26, okText.inBuf[k.val] = encChar (okSymbols k) ∨
      (10 ≤ (okSymbols k).toNat ∧ okText.inBuf[k.val] = encChar (okSymbols k) + 0x20#8) := by decide
  exact ⟨fun k => ⟨_, h k⟩, by decide⟩

/-- A first symbol above 7, and one not above it. -/
theorem witness_FirstSymbolRange :
    (decTable { pFoldO := false, pStrictFirst := false } (buf (ascii "8ZZZZZZZZZZZZZZZZZZZZZZZZZ"))[0] = some 8#5 ∧
      7 < (8#5 : Symbol).toNat) ∧
    (decTable { pFoldO := false, pStrictFirst := false } (buf (ascii "7ZZZZZZZZZZZZZZZZZZZZZZZZZ"))[0] = some 7#5 ∧
      (7#5 : Symbol).toNat ≤ 7) := by decide

/-- An empty operand, one of 26 bytes and one of 27. -/
theorem witness_PresentedOperandIsInTheInputs :
    ∀ n ∈ [0, 26, 27], (pend used (presentOperand (List.replicate n 7#8))).pending =
      presentOperand (List.replicate n 7#8) ++ [] := by decide

theorem witness_BlockComputesTheCodecOnHostValues :
    (pend used (presentOperand (List.replicate 16 7#8) ++ [.wr 0x00#8 0x43#8])).pending =
      presentOperand (List.replicate 16 7#8) ++ .wr 0x00#8 0x43#8 :: [] ∧
    List.replicate 16 7#8 = (Vector.replicate 16 7#8).toList ∧
    (pend used (presentOperand okText.inBuf.toList ++ [.wr 0x00#8 0x34#8])).pending =
      presentOperand okText.inBuf.toList ++ .wr 0x00#8 0x34#8 :: [] ∧
    (decode26 used.params okText.inBuf).isSome = true ∧
    decode26 used.params (buf (ascii "0000000000000000000000000U")) = none := by decide

/-- An operand of 27 bytes in both forms. -/
theorem witness_LongOperandGivesLengthInEitherForm :
    26 < (List.replicate 27 7#8).length ∧
    (pend used (presentOperand (List.replicate 27 7#8) ++ [.wr 0x00#8 (encode (.encode .blob))])).pending =
      presentOperand (List.replicate 27 7#8) ++ .wr 0x00#8 (encode (.encode .blob)) :: [] ∧
    (pend used (presentLength (List.replicate 27 7#8) ++ [.wr 0x00#8 (encode (.unpack .blob))])).pending =
      presentLength (List.replicate 27 7#8) ++ .wr 0x00#8 (encode (.unpack .blob)) :: [] := by decide

/-- A state after a text result meets the invariant, and steps. -/
theorem witness_EveryStepKeepsTheInvariant :
    let s := pend { State.reset with lastCmd := 0x43#8, status := 0x01#8, outLen := 26#8, outBuf := buf (ascii
      "7ZZZZZZZZZZZZZZZZZZZZZZZZZ") } [.wr 0x00#8 0x34#8]
    BlockInv s ∧ ∃ t, step s = .next t :=
  ⟨⟨by decide, by decide, by decide, by decide, by decide, by decide, by decide⟩, _, rfl⟩

end Sys2Proof.Tests
end

section
/-!
PROOFS. The register map as memory (20_memory.md): a multi-byte register read byte by byte (R62, R65).
-/

namespace Sys2Proof.Machine

/-! ### A register and its bytes (R62) -/

/-- The bytes of a register of `n` whole bytes are the digits of its value, so they give it back. -/
theorem bigEndian_regByte {n : Nat} (v : BitVec (8 * n)) : bigEndian ((List.range n).map (regByte v)) = v.toNat := by
  have hpow (k : Nat) : 256 ^ k = 2 ^ (8 * k) := (Nat.pow_mul 2 8 k).symm
  refine digitsValue_eq_of_digits (n := n) (by simp) (by rw [hpow]; exact v.isLt) fun i hi => ?_
  have hweight : 8 * n - 8 - 8 * i = 8 * (n - 1 - i) := by omega
  simp [regByte_toNat, hpow, hweight]

/-- The packed timestamp is bytes 2 to 7 of the 64-bit word (R141): the two bytes in front hold bits 63:48. -/
theorem pack48_toList (x : BitVec 64) : (pack48 x).toList = (List.range 6).map fun i => regByte x (2 + i) := by
  apply List.ext_getElem (by simp)
  intro i hi _
  have hslice : 64 - 8 - 8 * (2 + i) = 40 - 8 * i := by omega
  simp [pack48, regByte, hslice]

/-! ### Reads over the addresses of a multi-byte register (R65) -/

theorem memRead_inLen (s : State) {a : Addr} (h : 0x04 ≤ a.toNat) (h' : a.toNat ≤ 0x07) :
    memRead s a = regByte s.inLen (a.toNat - 0x04) := by
  simp only [memRead, locate_inLen h h']

theorem memRead_inInt (s : State) {a : Addr} (h : 0x08 ≤ a.toNat) (h' : a.toNat ≤ 0x0F) :
    memRead s a = regByte s.inInt (a.toNat - 0x08) := by
  simp only [memRead, locate_inInt h h']

theorem memRead_outInt (s : State) {a : Addr} (h : 0x10 ≤ a.toNat) (h' : a.toNat ≤ 0x17) :
    memRead s a = regByte s.outInt (a.toNat - 0x10) := by
  simp only [memRead, locate_outInt h h']

/-- The `n` host addresses from `base` on, in order. -/
def addressesFrom (base n : Nat) : List Addr := (List.range n).map fun i => BitVec.ofNat 8 (base + i)

/-- Reads over a block of addresses, from what a read returns at each offset. -/
theorem map_memRead_addressesFrom {s : State} {base n : Nat} {f : Nat → Byte} (hn : base + n ≤ 256)
    (h : ∀ a : Addr, base ≤ a.toNat → a.toNat < base + n → memRead s a = f (a.toNat - base)) :
    (addressesFrom base n).map (memRead s) = (List.range n).map f := by
  rw [addressesFrom, List.map_map]
  refine List.map_congr_left fun i hi => ?_
  have hi : i < n := List.mem_range.mp hi
  have ha : (BitVec.ofNat 8 (base + i)).toNat = base + i := Nat.mod_eq_of_lt (by omega)
  rw [Function.comp_apply, h _ (by omega) (by omega), ha, Nat.add_sub_cancel_left]

/-- Settles O5: the reads over a register's addresses are its bytes, the most significant first, and those bytes are
the base-256 digits of its value; PACK's six bytes are the last six of IN_INT's eight. -/
theorem multiByteRegistersAreBigEndian : Obligations.MultiByteRegistersAreBigEndian := by
  intro s
  have hInLen : (addressesFrom 0x04 4).map (memRead s) = (List.range 4).map (regByte s.inLen) :=
    map_memRead_addressesFrom (by decide) fun _ h h' => memRead_inLen s h (by omega)
  have hInInt : (addressesFrom 0x08 8).map (memRead s) = (List.range 8).map (regByte s.inInt) :=
    map_memRead_addressesFrom (by decide) fun _ h h' => memRead_inInt s h (by omega)
  have hOutInt : (addressesFrom 0x10 8).map (memRead s) = (List.range 8).map (regByte s.outInt) :=
    map_memRead_addressesFrom (by decide) fun _ h h' => memRead_outInt s h (by omega)
  have hPacked : (addressesFrom 0x0A 6).map (memRead s) = (pack48 s.inInt).toList := by
    rw [pack48_toList]
    refine map_memRead_addressesFrom (by decide) fun a h h' => ?_
    rw [memRead_inInt s (by omega) (by omega), show a.toNat - 0x08 = 2 + (a.toNat - 0x0A) by omega]
  exact ⟨(congrArg bigEndian hInLen).trans (bigEndian_regByte (n := 4) s.inLen),
    (congrArg bigEndian hInInt).trans (bigEndian_regByte (n := 8) s.inInt),
    (congrArg bigEndian hOutInt).trans (bigEndian_regByte (n := 8) s.outInt), hPacked⟩

end Sys2Proof.Machine
end

section
/-!
PROOFS. What a command writes and what it reads (40_command_execution.md): it leaves the inputs (R104), its outcome is
a function of its byte, the inputs and the parameters (R105), and of the inputs it reads its own operand only (R102).
-/

namespace Sys2Proof.Machine

/-- The one state a step on a command byte can answer. -/
theorem eq_commit_of_step_command {s t : State} {c : Byte} {rest : List HostEvent}
    (hp : s.pending = .wr 0x00#8 c :: rest) (h : step s = .next t) :
    t = commit (commandOutcome c { s with pending := rest }) { s with lastCmd := c, pending := rest } :=
  Host.Outcome.next.inj (h.symm.trans (step_command hp))

/-- Settles O26: such a step is a commit, and no commit writes an input register. -/
theorem commandsNeverWriteInputs : Obligations.CommandsNeverWriteInputs := by
  intro s t c rest hp h
  rw [eq_commit_of_step_command hp h]
  exact ⟨commit_inLen _ _, commit_inInt _ _, commit_inBuf _ _⟩

/-- Settles O28: both steps commit one outcome, and the outputs of a commit depend on its outcome alone. -/
theorem outcomeDependsOnInputsOnly : Obligations.OutcomeDependsOnInputsOnly := by
  intro s s' t t' c rest rest' hp hp' hLen hInt hBuf hParams h h'
  have hOutcome : commandOutcome c { s with pending := rest } = commandOutcome c { s' with pending := rest' } :=
    commandOutcome_congr c hLen hInt hBuf hParams
  rw [eq_commit_of_step_command hp h, eq_commit_of_step_command hp' h', hOutcome]
  exact ⟨by rw [commit_lastCmd, commit_lastCmd], commit_outputs _ _ _⟩

/-! ### The operand a command reads (R83, R102) -/

/-- The first `n` bytes of a buffer depend on no byte from index `n` on. -/
theorem firstBytes_congr {n : Nat} {hn : n ≤ 26} {buf buf' : Vector Byte 26}
    (h : ∀ k : Fin 26, k.val < n → buf[k.val] = buf'[k.val]) : firstBytes n hn buf = firstBytes n hn buf' := by
  apply Vector.ext
  intro i hi
  calc (firstBytes n hn buf)[i]
      _ = buf[i] := firstBytes_byte n hn buf ⟨i, hi⟩
      _ = buf'[i] := h ⟨i, by omega⟩ hi
      _ = (firstBytes n hn buf')[i] := (firstBytes_byte n hn buf' ⟨i, hi⟩).symm

/-- Behind a length check the bodies need to agree only where IN_LEN is the required length. -/
theorem checkLength_congr {n : BitVec 32} {s s' : State} {b b' : CommandOutcome} (hLen : s.inLen = s'.inLen)
    (hBody : s.inLen = n → b = b') : checkLength n s b = checkLength n s' b' := by
  by_cases h : s.inLen = n
  · rw [checkLength_right b h, checkLength_right b' (hLen ▸ h), hBody h]
  · rw [checkLength_wrong b h, checkLength_wrong b' (hLen ▸ h)]

theorem decodeBody_congr {s s' : State} (hParams : s.params = s'.params) (hBuf : s.inBuf = s'.inBuf) :
    decodeBody s = decodeBody s' := by
  unfold decodeBody
  rw [hParams, hBuf]

/-- The null and kind checks read no register, so a command's outcome depends on no more than its body does. -/
theorem outcomeOf_eq_of_typedOutcome_eq {i : Instr} {s s' : State} (h : typedOutcome i s = typedOutcome i s') :
    outcomeOf i s = outcomeOf i s' := by
  rw [outcomeOf_eq, outcomeOf_eq, h]

/-- Two states in which a command has one outcome are left with the same outputs. -/
theorem exec_outputs_eq_of_outcomeOf_eq {i : Instr} {s s' t t' : State} (hOutcome : outcomeOf i s = outcomeOf i s')
    (h : exec i s = .next t) (h' : exec i s' = .next t') :
    t.status = t'.status ∧ t.outLen = t'.outLen ∧ t.outInt = t'.outInt ∧ t.outBuf = t'.outBuf := by
  rw [exec_eq_commit] at h h'
  cases h
  cases h'
  rw [hOutcome]
  exact commit_outputs _ _ _

/-- Settles O29: the body of each operation, run behind its length check, reads only the bytes of its operand. -/
theorem commandsReadOnlyTheirOperand : Obligations.CommandsReadOnlyTheirOperand := by
  intro s s' t t' i h h' hParams hOperand
  have hBody : typedOutcome i s = typedOutcome i s' := by
    cases i with
    | pack k => exact congrArg (fun x => CommandOutcome.valueBytes (pack48 x).toList) hOperand
    | unpack k =>
      obtain ⟨hLen, hBytes⟩ := hOperand
      exact checkLength_congr hLen fun hn =>
        congrArg (fun b => CommandOutcome.valueInt (unpack48 b)) (firstBytes_congr (hBytes hn))
    | encode k =>
      obtain ⟨hLen, hBytes⟩ := hOperand
      exact checkLength_congr hLen fun hn =>
        congrArg (fun b => CommandOutcome.valueBytes (encode26 b).toList) (firstBytes_congr (hBytes hn))
    | decode k =>
      obtain ⟨hLen, hBuf⟩ := hOperand
      exact checkLength_congr hLen fun hn => decodeBody_congr hParams (hBuf hn)
    | extract k =>
      obtain ⟨hLen, hBytes⟩ := hOperand
      exact checkLength_congr hLen fun hn =>
        congrArg (fun b => CommandOutcome.valueInt (unpack48 b)) (firstBytes_congr (hBytes hn))
  exact exec_outputs_eq_of_outcomeOf_eq (outcomeOf_eq_of_typedOutcome_eq hBody) h h'

end Sys2Proof.Machine
end

section
/-!
PROOFS. The ambiguous glyphs (41_alphabet_tables.md): they are characters of ENC_TABLE in neither case (R120, R122), so
the glyph rules alone say what DEC_TABLE answers for them (R124, R125, R126), and the encoder never emits them.
-/

namespace Sys2Proof.Machine

/-- The alphabet holds every character of ENC_TABLE, so a byte outside it is never emitted (R120). -/
theorem encChar_ne_of_alphabetIndex_eq_none {b : Byte} (h : alphabetIndex b = none) (v : Symbol) : encChar v ≠ b := by
  rw [alphabetIndex, Option.map_eq_none_iff, List.find?_eq_none] at h
  simpa [encChar] using h ⟨v.toNat, v.isLt⟩ (List.mem_finRange _)

/-- I, i, L, l, O, o, U and u. -/
def ambiguousGlyphBytes : List Byte := [0x49#8, 0x69#8, 0x4C#8, 0x6C#8, 0x4F#8, 0x6F#8, 0x55#8, 0x75#8]

theorem alphabetIndex_ambiguousGlyph : ∀ b ∈ ambiguousGlyphBytes, alphabetIndex b = none := by decide

theorem lowerIndex_ambiguousGlyph : ∀ b ∈ ambiguousGlyphBytes, lowerIndex b = none := by decide

/-- On an ambiguous glyph both alphabet lookups of DEC_TABLE miss, which leaves the rules of R124, R125 and R126. -/
theorem decTable_ambiguousGlyph (p : Config.Params) {b : Byte} (h : b ∈ ambiguousGlyphBytes) :
    decTable p b =
      if b = 0x49#8 ∨ b = 0x69#8 ∨ b = 0x4C#8 ∨ b = 0x6C#8 then some 1#5
      else if (b = 0x4F#8 ∨ b = 0x6F#8) ∧ p.pFoldO = true then some 0#5
      else none := by
  rw [decTable, alphabetIndex_ambiguousGlyph b h, lowerIndex_ambiguousGlyph b h]

/-- ENC_TABLE holds no ambiguous glyph (R120). -/
theorem encChar_not_mem_ambiguousGlyphBytes (v : Symbol) : encChar v ∉ ambiguousGlyphBytes :=
  fun h => encChar_ne_of_alphabetIndex_eq_none (alphabetIndex_ambiguousGlyph _ h) v rfl

/-- Settles O40: the glyphs are outside the alphabet, so the glyph rules decide what they decode to and the encoder
never emits them. -/
theorem ambiguousGlyphs : Obligations.AmbiguousGlyphs := by
  refine ⟨fun p => ⟨fun b hb => ?one, fun b hb => ?invalid, fun b hb => ?fold⟩, rfl, encChar_not_mem_ambiguousGlyphBytes⟩
  case one =>
    have hGlyph : b ∈ ambiguousGlyphBytes := by rcases hb with rfl | rfl | rfl | rfl <;> decide
    rw [decTable_ambiguousGlyph p hGlyph, if_pos hb]
  case invalid =>
    have hGlyph : b ∈ ambiguousGlyphBytes := by rcases hb with rfl | rfl <;> decide
    rw [decTable_ambiguousGlyph p hGlyph]
    rcases hb with rfl | rfl <;> simp
  case fold =>
    have hGlyph : b ∈ ambiguousGlyphBytes := by rcases hb with rfl | rfl <;> decide
    have hNotOne : ¬ (b = 0x49#8 ∨ b = 0x69#8 ∨ b = 0x4C#8 ∨ b = 0x6C#8) := by rcases hb with rfl | rfl <;> decide
    rw [decTable_ambiguousGlyph p hGlyph, if_neg hNotOne]
    simp only [hb, true_and]

end Sys2Proof.Machine
end

section
/-!
PROOFS. The timestamp codec (42_timestamp_codec.md): PACK's bytes as quotients of IN_INT (R141, R143), UNPACK's integer
as the bytes of IN_BUF side by side (R142, R144), and the checks before both (R212, R216).
-/

namespace Sys2Proof.Machine

open Sys2Proof.Claims

/-! ### The whole next state of a command, by its kind (R101) -/

theorem exec_of_kind_eq_null {i : Instr} {s : State} (hNull : i.kind = .null) :
    exec i s = .next (cleared s 0x02#8) := by
  rw [exec_eq_commit, outcomeOf_eq, if_pos hNull]
  rfl

theorem exec_of_kind_wrong {i : Instr} {s : State} (hNull : i.kind ≠ .null) (hKind : i.kind ≠ bodyKind i) :
    exec i s = .next (cleared s 0x07#8) := by
  rw [exec_eq_commit, outcomeOf_eq, if_neg hNull, if_neg hKind]
  rfl

theorem bodyKind_ne_null (i : Instr) : bodyKind i ≠ .null := by
  cases i <;> simp [bodyKind]

/-- A command of the expected kind passes both checks and commits the outcome of its own rule. -/
theorem exec_of_typedOutcome_eq {i : Instr} {s : State} (o : CommandOutcome) (hKind : i.kind = bodyKind i)
    (ho : typedOutcome i s = o) : exec i s = .next (commit o s) := by
  rw [exec_eq_commit, outcomeOf_eq, if_neg (hKind ▸ bodyKind_ne_null i), if_pos hKind, ho]

/-! ### The bytes of a byte result (R103, R141) -/

/-- A byte result given by numbers, each truncated to its low 8 bits. -/
theorem padBuf_map_ofNat (ns : List Nat) : padBuf (ns.map (BitVec.ofNat 8)) = bufOf ns := by
  apply Vector.ext
  intro i hi
  simp [padBuf, bufOf]

/-- A byte slice of a word is a quotient of it, truncated to 8 bits. -/
theorem regByte_eq_ofNat {w : Nat} (v : BitVec w) (i : Nat) :
    regByte v i = BitVec.ofNat 8 (v.toNat / 2 ^ (w - 8 - 8 * i)) := by
  apply BitVec.eq_of_toNat_eq
  rw [regByte_toNat, BitVec.toNat_ofNat]

/-- The six numbers of R143, most significant first, whose low 8 bits PACK answers for `x`. -/
def packQuotients (x : Nat) : List Nat := [x / 2 ^ 40, x / 2 ^ 32, x / 2 ^ 24, x / 2 ^ 16, x / 2 ^ 8, x]

theorem pack48_toList_eq_map_ofNat (x : BitVec 64) :
    (pack48 x).toList = (packQuotients x.toNat).map (BitVec.ofNat 8) := by
  rw [pack48_toList]
  simp [List.range_succ, regByte_eq_ofNat, packQuotients]

/-- Settles O33: PACK.int commits the bytes of `pack48`, which are the truncated quotients of IN_INT; the other kinds
end in the null and kind checks. -/
theorem packWritesTheTimestampBytes : Obligations.PackWritesTheTimestampBytes := by
  intro s
  refine ⟨?value, exec_of_kind_eq_null rfl, ?wrongKind⟩
  case value =>
    have hBuf : padBuf (pack48 s.inInt).toList = bufOf (packQuotients s.inInt.toNat) := by
      rw [pack48_toList_eq_map_ofNat, padBuf_map_ofNat]
    calc exec (.pack .integer) s
        _ = .next (commit (.valueBytes (pack48 s.inInt).toList) s) := exec_of_typedOutcome_eq _ rfl rfl
        _ = .next (withOutputs s (padBuf (pack48 s.inInt).toList) (BitVec.ofNat 8 (pack48 s.inInt).toList.length)
              0#64 0x01#8) := rfl
        _ = .next (withOutputs s (bufOf (packQuotients s.inInt.toNat)) 6#8 0#64 0x01#8) := by rw [hBuf, Vector.length_toList]
  case wrongKind =>
    rintro k (rfl | rfl | rfl) <;> exact exec_of_kind_wrong (by decide) (by decide)

/-! ### The integer of six bytes (R142) -/

/-- A byte written after a word is one more base-256 digit of its value. -/
theorem toNat_append_byte {w : Nat} (x : BitVec w) (b : Byte) : (x ++ b).toNat = x.toNat * 256 + b.toNat := by
  rw [BitVec.toNat_append, ← Nat.shiftLeft_add_eq_or_of_lt b.isLt, Nat.shiftLeft_eq]

theorem operand6_toList (s : State) :
    (operand6 s).toList = [s.inBuf[0], s.inBuf[1], s.inBuf[2], s.inBuf[3], s.inBuf[4], s.inBuf[5]] := rfl

/-- The integer of the operand is its six bytes side by side after 16 zero bits (R142). -/
theorem unpack48_operand6 (s : State) :
    unpack48 (operand6 s) =
      0#16 ++ s.inBuf[0] ++ s.inBuf[1] ++ s.inBuf[2] ++ s.inBuf[3] ++ s.inBuf[4] ++ s.inBuf[5] := by
  apply BitVec.eq_of_toNat_eq
  rw [unpack48_toNat, operand6_toList]
  simp only [toNat_append_byte, bigEndian, digitsValue, List.map_cons, List.map_nil, List.foldl_cons, List.foldl_nil,
    BitVec.toNat_zero]

/-- Settles O34: behind the length check UNPACK.blob commits the integer of its operand; a wrong length and the other
kinds end in the checks. -/
theorem unpackWritesTheInteger : Obligations.UnpackWritesTheInteger := by
  intro s
  refine ⟨fun hLen => ?value, fun hLen => ?wrongLength, exec_of_kind_eq_null rfl, ?wrongKind⟩
  case value =>
    rw [← unpack48_operand6]
    exact exec_of_typedOutcome_eq (.valueInt (unpack48 (operand6 s))) rfl (checkLength_right _ hLen)
  case wrongLength => exact exec_of_typedOutcome_eq (.error .length) rfl (checkLength_wrong _ hLen)
  case wrongKind =>
    rintro k (rfl | rfl | rfl) <;> exact exec_of_kind_wrong (by decide) (by decide)

end Sys2Proof.Machine
end

section
/-!
PROOFS. The decoder (44_decoder.md): the outcomes of `decode26` by the symbols of the text (R182, R183, R184), the
discarded top bits of the stream (R181), and DECODE as the one command that gives CONTENT (R218).
-/

namespace Sys2Proof.Machine

open Sys2Proof.Claims

/-! ### The outcomes of decode26 (R182, R183, R184) -/

theorem decTable_first_of_symbols {p : Config.Params} {s : Vector Byte 26} {u : Vector Symbol 26}
    (hs : symbols p s = some u) : decTable p s[0] = some u[0] :=
  (symbols_eq_some p s u).mp hs 0

/-- A text whose first symbol the block accepts decodes to the bytes of its symbols, if it has symbols. -/
theorem decode26_eq_map_symbols {p : Config.Params} {s : Vector Byte 26} {v : Symbol}
    (hFirst : decTable p s[0] = some v) (hRange : p.pStrictFirst = true → v.toNat ≤ 7) :
    decode26 p s = (symbols p s).map fun u => streamBytes (decodeStream u) := by
  unfold decode26
  cases hs : symbols p s with
  | none => rfl
  | some u =>
    obtain rfl : u[0] = v := Option.some.inj ((decTable_first_of_symbols hs).symm.trans hFirst)
    exact if_neg fun ⟨hStrict, hGt⟩ => Nat.not_lt.mpr (hRange hStrict) hGt

/-- A text does not decode exactly when a character is INVALID or the strict block rejects the first symbol. -/
theorem decode26_eq_none_iff (p : Config.Params) (s : Vector Byte 26) :
    decode26 p s = none ↔
      (∃ k : Fin 26, decTable p s[k.val] = none) ∨
        (p.pStrictFirst = true ∧ ∃ v, decTable p s[0] = some v ∧ 7 < v.toNat) := by
  unfold decode26
  rw [← symbols_eq_none]
  cases hs : symbols p s with
  | none => simp
  | some u => simp [decTable_first_of_symbols hs]

/-! ### CONTENT (R218) -/

theorem decodeBody_eq_content_iff (s : State) : decodeBody s = .error .content ↔ contentFails s := by
  have hNone : decode26 s.params s.inBuf = none ↔ contentFails s := decode26_eq_none_iff s.params s.inBuf
  rw [← hNone]
  rcases decodeBody_cases s with ⟨hBody, hDecode⟩ | ⟨b, hBody, hDecode⟩ <;> simp [hBody, hDecode]

/-- The length check passes a CONTENT of the body on and gives none of its own (R102). -/
theorem checkLength_eq_content_iff {n : BitVec 32} {s : State} {b : CommandOutcome} :
    checkLength n s b = .error .content ↔ s.inLen = n ∧ b = .error .content := by
  by_cases h : s.inLen = n
  · simp [checkLength_right b h, h]
  · simp [checkLength_wrong b h, h]

/-- Of the five bodies DECODE's alone can end in CONTENT. -/
theorem typedOutcome_eq_content_iff (i : Instr) (s : State) :
    typedOutcome i s = .error .content ↔ (∃ k, i = .decode k) ∧ s.inLen = 26#32 ∧ contentFails s := by
  cases i with
  | decode k =>
    rw [← decodeBody_eq_content_iff]
    exact checkLength_eq_content_iff.trans (by simp)
  | pack k => simp [typedOutcome]
  | unpack k => simp [typedOutcome, checkLength_eq_content_iff]
  | encode k => simp [typedOutcome, checkLength_eq_content_iff]
  | extract k => simp [typedOutcome, checkLength_eq_content_iff]

/-- CONTENT passes the null and kind checks of DECODE.text only (R101, R218). -/
theorem outcomeOf_eq_content_iff (i : Instr) (s : State) :
    outcomeOf i s = .error .content ↔ i = .decode .text ∧ s.inLen = 26#32 ∧ contentFails s := by
  constructor
  · intro h
    rw [outcomeOf_eq] at h
    split at h
    · cases h
    · split at h
      · next hKind =>
        obtain ⟨⟨k, rfl⟩, hLen, hFails⟩ := (typedOutcome_eq_content_iff i s).mp h
        exact ⟨congrArg Instr.decode hKind, hLen, hFails⟩
      · cases h
  · rintro ⟨rfl, hLen, hFails⟩
    exact (typedOutcome_eq_content_iff _ s).mpr ⟨⟨.text, rfl⟩, hLen, hFails⟩

/-- The error codes are distinct (R24, R25). -/
theorem errorCode_injective : Function.Injective errorCode := by
  intro e cls
  cases e <;> cases cls <;> decide

/-- The RESULT field is the low two bits of STATUS. -/
theorem resultField_statusByte (code : BitVec 3) (result : ResultKind) :
    resultField (statusByte code result) = resultCode result := by
  cases result <;> revert code <;> decide

theorem errClassField_statusByte (code : BitVec 3) (result : ResultKind) :
    errClassField (statusByte code result) = code := by
  cases result <;> revert code <;> decide

/-- STATUS tells an error outcome and its class from every other outcome (R24, R210). -/
theorem commit_status_eq_error {o : CommandOutcome} {cls : ErrorClass} {s : State}
    (h : (commit o s).status = statusByte (errorCode cls) .error) : o = .error cls := by
  have hResult : resultField (commit o s).status = 3#2 := by rw [h, resultField_statusByte]; rfl
  cases o with
  | valueBytes bytes => exact absurd (show 1#2 = 3#2 from hResult) (by decide)
  | valueInt w => exact absurd (show 1#2 = 3#2 from hResult) (by decide)
  | null => exact absurd (show 2#2 = 3#2 from hResult) (by decide)
  | error e =>
    have hClass : errClassField (statusByte (errorCode e) .error) = errorCode cls := by
      rw [← errClassField_statusByte (errorCode cls) .error, ← h]; rfl
    rw [errClassField_statusByte] at hClass
    rw [errorCode_injective hClass]

/-- Settles O24: a command commits CONTENT exactly when it is DECODE.text of length 26 on a content that fails, and
STATUS 0x0F tells CONTENT from every other outcome. -/
theorem badContentRaisesContent : Obligations.BadContentRaisesContent := by
  refine ⟨fun s hLen hFails => ?raised, fun i s t hExec hStatus => ?only⟩
  case raised =>
    rw [exec_eq_commit, (outcomeOf_eq_content_iff _ s).mpr ⟨rfl, hLen, hFails⟩]
    rfl
  case only =>
    rw [exec_eq_commit] at hExec
    cases hExec
    exact (outcomeOf_eq_content_iff i s).mp (commit_status_eq_error hStatus)

/-! ### The symbol of an encoded character (R128) -/

theorem alphabetIndex_encChar : ∀ v : Symbol, alphabetIndex (encChar v) = some v := by decide

theorem decTable_encChar (p : Config.Params) (v : Symbol) : decTable p (encChar v) = some v := by
  rw [decTable, alphabetIndex_encChar]

/-! ### Replacing one character (R180) -/

/-- Replacing a valid character by another replaces its symbol and leaves the other characters' validity. -/
theorem symbols_set {p : Config.Params} {s : Vector Byte 26} {c : Byte} {v w : Symbol} {i : Nat} (hi : i < 26)
    (hOld : decTable p s[i] = some v) (hNew : decTable p c = some w) :
    symbols p (s.set i c) = (symbols p s).map fun u => u.set i w := by
  cases hs : symbols p s with
  | none =>
    obtain ⟨k, hk⟩ := (symbols_eq_none p s).mp hs
    have hik : i ≠ k.val := fun h => by simp [← h, hOld] at hk
    exact (symbols_eq_none _ _).mpr ⟨k, by rwa [Vector.getElem_set_ne _ _ hik]⟩
  | some u =>
    refine (symbols_eq_some _ _ _).mpr fun k => ?_
    by_cases hik : i = k.val
    · simp [← hik, hNew]
    · rw [Vector.getElem_set_ne _ _ hik, Vector.getElem_set_ne _ _ hik]
      exact (symbols_eq_some p s u).mp hs k

/-! ### The two discarded bits of the stream (R181) -/

/-- The output bytes depend on no bit of the stream above bit 127. -/
theorem streamBytes_congr {w w' : BitVec 130} (h : w.toNat % 2 ^ 128 = w'.toNat % 2 ^ 128) :
    streamBytes w = streamBytes w' := by
  have hByte : ∀ (x : Nat) (j : Fin 16), x / 256 ^ (15 - j.val) % 256 = x % 2 ^ 128 / 256 ^ (15 - j.val) % 256 := by
    intro x j
    have hDvd : 256 ^ (15 - j.val) * 256 ∣ 2 ^ 128 := by
      rw [← Nat.pow_succ, show 2 ^ 128 = 256 ^ 16 from rfl]
      exact Nat.pow_dvd_pow 256 (by omega)
    rw [← Nat.mod_mul_right_div_self, ← Nat.mod_mul_right_div_self, Nat.mod_mod_of_dvd _ hDvd]
  apply Vector.ext
  intro j hj
  apply BitVec.eq_of_toNat_eq
  rw [streamBytes_byte w ⟨j, hj⟩, streamBytes_byte w' ⟨j, hj⟩, hByte, h, ← hByte]

/-- The first symbol is the top digit of the stream. -/
theorem decodeStream_set_zero_toNat (u : Vector Symbol 26) (w : Symbol) :
    (decodeStream (u.set 0 w)).toNat = w.toNat * 2 ^ 125 + digitsValue 32 (u.toList.tail.map BitVec.toNat) := by
  have hList : (u.set 0 w).toList = w :: u.toList.tail := by
    rw [Vector.toList_set]
    cases hu : u.toList with
    | nil => simp at hu
    | cons first rest => rfl
  rw [decodeStream_toNat, hList, List.map_cons, digitsValue_cons]
  simp

/-- Of the first symbol only the three low bits reach the output bytes. -/
theorem streamBytes_decodeStream_set_zero {u : Vector Symbol 26} {w : Symbol} (h : w.toNat % 8 = u[0].toNat % 8) :
    streamBytes (decodeStream (u.set 0 w)) = streamBytes (decodeStream u) := by
  apply streamBytes_congr
  have hSelf : u = u.set 0 u[0] := by simp
  rw [hSelf, Vector.set_set, decodeStream_set_zero_toNat, decodeStream_set_zero_toNat]
  omega

/-! ### The first symbol (R183) -/

/-- The permissive block takes the first symbol modulo 8. -/
theorem decode26_permissive_set_first {p : Config.Params} {s : Vector Byte 26} {v : Symbol}
    (hPermissive : p.pStrictFirst = false) (hFirst : decTable p s[0] = some v) :
    decode26 p (s.set 0 (encChar (v &&& 7#5))) = decode26 p s := by
  have hRange : ∀ w : Symbol, p.pStrictFirst = true → w.toNat ≤ 7 := fun _ h => by simp [hPermissive] at h
  have hNew := decTable_encChar p (v &&& 7#5)
  have hMod : (v &&& 7#5).toNat % 8 = v.toNat % 8 := by
    rw [BitVec.toNat_and, show (7#5).toNat = 2 ^ 3 - 1 from rfl, Nat.and_two_pow_sub_one_eq_mod, Nat.mod_mod]
  rw [decode26_eq_map_symbols hFirst (hRange v), decode26_eq_map_symbols (by simpa using hNew) (hRange (v &&& 7#5)),
    symbols_set (by decide) hFirst hNew, Option.map_map]
  cases hs : symbols p s with
  | none => rw [Option.map_none, Option.map_none]
  | some u =>
    have hu : u[0] = v := Option.some.inj ((decTable_first_of_symbols hs).symm.trans hFirst)
    exact congrArg some (streamBytes_decodeStream_set_zero (by rw [hMod, hu]))

/-- Settles O49: the discarded stream bits make the permissive block's first symbol count modulo 8, and DEC_TABLE, the
same for both values of P_STRICT_FIRST, leaves the strict block only its range check. -/
theorem firstSymbolRange : Obligations.FirstSymbolRange := by
  intro foldO s v hFirst
  refine ⟨(decode26_permissive_set_first rfl hFirst).symm, fun hv => ?rejected, fun hv => ?accepted⟩
  case rejected => exact (decode26_eq_none_iff _ s).mpr (.inr ⟨rfl, v, hFirst, hv⟩)
  case accepted =>
    calc decode26 { pFoldO := foldO, pStrictFirst := true } s
        _ = (symbols { pFoldO := foldO, pStrictFirst := false } s).map fun u => streamBytes (decodeStream u) :=
          decode26_eq_map_symbols hFirst fun _ => hv
        _ = decode26 { pFoldO := foldO, pStrictFirst := false } s := (decode26_eq_map_symbols hFirst fun _ => hv).symm

end Sys2Proof.Machine
end

section
/-!
PROOFS. The timestamp extractor (45_timestamp_extractor.md): behind the length of a whole binary ULID, EXTRACT answers
the integer of the first six bytes of IN_BUF (R200), the integer UNPACK answers behind length 6 (R142).
-/

namespace Sys2Proof.Machine

open Sys2Proof.Claims

/-- An integer result is a VALUE with OUT_BUF cleared and OUT_LEN 0, and nothing else changes (R103). -/
theorem exec_of_typedOutcome_eq_valueInt {i : Instr} {s : State} {w : BitVec 64} (hKind : i.kind = bodyKind i)
    (ho : typedOutcome i s = .valueInt w) : exec i s = .next (withOutputs s clearBuf 0#8 w 0x01#8) :=
  exec_of_typedOutcome_eq (.valueInt w) hKind ho

/-- A command whose body stands behind a length check answers LENGTH for every other length (R217). -/
theorem exec_of_length_wrong {i : Instr} {s : State} {n : BitVec 32} {body : CommandOutcome}
    (hKind : i.kind = bodyKind i) (ho : typedOutcome i s = checkLength n s body) (hLen : s.inLen ≠ n) :
    exec i s = .next (cleared s 0x0B#8) :=
  exec_of_typedOutcome_eq (.error .length) hKind (ho.trans (checkLength_wrong body hLen))

/-- On 16 bytes EXTRACT's own rule reads the first six of them and ignores the randomness (R200). -/
theorem typedOutcome_extract_of_inLen {s : State} (k : Kind) (hLen : s.inLen = 16#32) :
    typedOutcome (.extract k) s = .valueInt
      (0#16 ++ s.inBuf[0] ++ s.inBuf[1] ++ s.inBuf[2] ++ s.inBuf[3] ++ s.inBuf[4] ++ s.inBuf[5]) :=
  calc typedOutcome (.extract k) s
      _ = .valueInt (unpack48 (operand6 s)) := checkLength_right _ hLen
      _ = _ := congrArg CommandOutcome.valueInt (unpack48_operand6 s)

/-- Settles O35: with IN_LEN 16 EXTRACT.blob commits the integer of the first six bytes of IN_BUF; a wrong length, the
null operand and the other kinds end in the checks before it. -/
theorem extractWritesTheTimestamp : Obligations.ExtractWritesTheTimestamp := by
  intro s
  refine ⟨fun hLen => ?value, fun hLen => ?wrongLength, exec_of_kind_eq_null rfl, ?wrongKind⟩
  case value => exact exec_of_typedOutcome_eq_valueInt rfl (typedOutcome_extract_of_inLen .blob hLen)
  case wrongLength => exact exec_of_length_wrong rfl rfl hLen
  case wrongKind =>
    rintro k (rfl | rfl | rfl) <;> exact exec_of_kind_wrong (by decide) (by decide)

end Sys2Proof.Machine
end

section
/-!
PROOFS. The outcomes of a command (60_exceptions.md): which checks give which outcome (R212, R216, R217), the illegal
bytes (R215), what every failure commits (R211, R213), and the order of the checks over the bits of the byte (R214).
-/

namespace Sys2Proof.Machine

open Sys2Proof.Claims

/-! ### The checks that give NULL, TYPE and LENGTH (R212, R216, R217) -/

/-- Behind the null and kind checks a command ends in LENGTH, in CONTENT, or in a value. -/
theorem typedOutcome_error_or_value (i : Instr) (s : State) :
    typedOutcome i s = .error .length ∨ typedOutcome i s = .error .content ∨
      (∃ bytes, typedOutcome i s = .valueBytes bytes) ∨ ∃ w, typedOutcome i s = .valueInt w := by
  rcases typedOutcome_cases i s with h | ⟨h, -⟩ | ⟨b, h, -⟩ | ⟨b, h, -⟩ | ⟨b, h, -⟩ | ⟨b, h, -⟩
  · exact .inl h
  · exact .inr (.inl h)
  · exact .inr (.inr (.inl ⟨_, h⟩))
  · exact .inr (.inr (.inl ⟨_, h⟩))
  · exact .inr (.inr (.inl ⟨_, h⟩))
  · exact .inr (.inr (.inr ⟨_, h⟩))

theorem typedOutcome_ne_null (i : Instr) (s : State) : typedOutcome i s ≠ .null := by
  rcases typedOutcome_error_or_value i s with h | h | ⟨bytes, h⟩ | ⟨w, h⟩ <;> simp [h]

theorem eq_length_or_content_of_typedOutcome_eq_error {i : Instr} {s : State} {cls : ErrorClass}
    (h : typedOutcome i s = .error cls) : cls = .length ∨ cls = .content := by
  rcases typedOutcome_error_or_value i s with h' | h' | ⟨bytes, h'⟩ | ⟨w, h'⟩ <;>
    cases h.symm.trans h'
  · exact .inl rfl
  · exact .inr rfl

theorem bodyKind_eq_expectedKind (i : Instr) : bodyKind i = expectedKind i := by
  cases i <;> rfl

/-- `outcomeOf_eq` with the kinds of R83. -/
theorem outcomeOf_eq_checks (i : Instr) (s : State) :
    outcomeOf i s =
      if i.kind = .null then .null else if i.kind = expectedKind i then typedOutcome i s else .error .type := by
  rw [outcomeOf_eq, bodyKind_eq_expectedKind]

theorem outcomeOf_of_kind_expected {i : Instr} (s : State) (hKind : i.kind = expectedKind i) :
    outcomeOf i s = typedOutcome i s := by
  have hNull : i.kind ≠ .null := by rw [hKind, ← bodyKind_eq_expectedKind]; exact bodyKind_ne_null i
  rw [outcomeOf_eq_checks, if_neg hNull, if_pos hKind]

theorem outcomeOf_eq_null_iff (i : Instr) (s : State) : outcomeOf i s = .null ↔ i.kind = .null := by
  rw [outcomeOf_eq_checks]
  split
  · next hNull => simp [hNull]
  · next hNull =>
    split
    · simp [hNull, typedOutcome_ne_null]
    · simp [hNull]

/-- The errors of a legal command: TYPE from the kind check, and the errors of its body only behind it. -/
theorem outcomeOf_eq_error_iff (i : Instr) (s : State) (cls : ErrorClass) :
    outcomeOf i s = .error cls ↔
      (i.kind ≠ .null ∧ i.kind ≠ expectedKind i ∧ cls = .type) ∨
        (i.kind = expectedKind i ∧ typedOutcome i s = .error cls) := by
  by_cases hKind : i.kind = expectedKind i
  · simp [outcomeOf_of_kind_expected s hKind, hKind]
  · rw [outcomeOf_eq_checks, if_neg hKind]
    by_cases hNull : i.kind = .null
    · simp [hNull, hNull ▸ hKind]
    · simp [hNull, hKind, eq_comm]

theorem outcomeOf_eq_type_iff (i : Instr) (s : State) :
    outcomeOf i s = .error .type ↔ i.kind ≠ .null ∧ i.kind ≠ expectedKind i := by
  have hBody : typedOutcome i s ≠ .error .type := fun h => by
    simpa using eq_length_or_content_of_typedOutcome_eq_error h
  simp [outcomeOf_eq_error_iff, hBody]

/-- The length check gives LENGTH for every other IN_LEN, and its body never does. -/
theorem checkLength_eq_length_iff {n : BitVec 32} {s : State} {body : CommandOutcome} (hBody : body ≠ .error .length) :
    checkLength n s body = .error .length ↔ s.inLen.toNat ≠ n.toNat := by
  rw [ne_eq, BitVec.toNat_inj]
  by_cases h : s.inLen = n
  · simp [checkLength_right body h, h, hBody]
  · simp [checkLength_wrong body h, h]

theorem decodeBody_ne_length (s : State) : decodeBody s ≠ .error .length := by
  rcases decodeBody_cases s with ⟨h, -⟩ | ⟨b, h, -⟩ <;> simp [h]

/-- A body that stands behind a length check gives LENGTH for every other length; PACK's has none (R217). -/
theorem typedOutcome_eq_length_iff (i : Instr) (s : State) :
    typedOutcome i s = .error .length ↔ ∃ n, requiredLength i = some n ∧ s.inLen.toNat ≠ n := by
  cases i with
  | pack k => simp [typedOutcome, requiredLength]
  | unpack k => exact (checkLength_eq_length_iff (by simp)).trans (by simp [requiredLength])
  | encode k => exact (checkLength_eq_length_iff (by simp)).trans (by simp [requiredLength])
  | decode k => exact (checkLength_eq_length_iff (decodeBody_ne_length s)).trans (by simp [requiredLength])
  | extract k => exact (checkLength_eq_length_iff (by simp)).trans (by simp [requiredLength])

theorem outcomeOf_eq_length_iff (i : Instr) (s : State) :
    outcomeOf i s = .error .length ↔
      i.kind = expectedKind i ∧ ∃ n, requiredLength i = some n ∧ s.inLen.toNat ≠ n := by
  simp [outcomeOf_eq_error_iff, typedOutcome_eq_length_iff]

/-! ### STATUS tells the outcome (R24, R210) -/

/-- What STATUS.RESULT says of an outcome (R24). -/
def CommandOutcome.resultKind : CommandOutcome → ResultKind
  | .valueBytes _ => .value
  | .valueInt _ => .value
  | .null => .null
  | .error _ => .error

theorem resultField_commit (o : CommandOutcome) (s : State) :
    resultField (commit o s).status = resultCode o.resultKind := by
  cases o <;> exact resultField_statusByte _ _

theorem eq_null_of_resultField_commit {o : CommandOutcome} {s : State} (h : resultField (commit o s).status = 2#2) :
    o = .null := by
  rw [resultField_commit] at h
  cases o with
  | null => rfl
  | valueBytes _ | valueInt _ | error _ => simp [CommandOutcome.resultKind, resultCode] at h

theorem exists_eq_error_of_resultField_commit {o : CommandOutcome} {s : State}
    (h : resultField (commit o s).status = 3#2) : ∃ cls, o = .error cls := by
  rw [resultField_commit] at h
  cases o with
  | error cls => exact ⟨cls, rfl⟩
  | valueBytes _ | valueInt _ | null => simp [CommandOutcome.resultKind, resultCode] at h

/-- The one state a command can answer. -/
theorem eq_commit_of_exec {i : Instr} {s t : State} (h : exec i s = .next t) : t = commit (outcomeOf i s) s :=
  Host.Outcome.next.inj (h.symm.trans (exec_eq_commit i s))

theorem outcomeOf_eq_null_of_exec_status {i : Instr} {s t : State} (hExec : exec i s = .next t)
    (hStatus : t.status = 0x02#8) : outcomeOf i s = .null := by
  rw [eq_commit_of_exec hExec] at hStatus
  exact eq_null_of_resultField_commit (congrArg resultField hStatus)

theorem outcomeOf_eq_error_of_exec_status {i : Instr} {s t : State} {cls : ErrorClass} (hExec : exec i s = .next t)
    (hStatus : t.status = statusByte (errorCode cls) .error) : outcomeOf i s = .error cls := by
  rw [eq_commit_of_exec hExec] at hStatus
  exact commit_status_eq_error hStatus

/-- The whole next state of a legal command that fails (R213). -/
theorem exec_of_outcomeOf_eq_error {i : Instr} {s : State} {cls : ErrorClass} (h : outcomeOf i s = .error cls) :
    exec i s = .next (cleared s (statusByte (errorCode cls) .error)) := by
  rw [exec_eq_commit, h]
  rfl

/-- Settles O21: the null check comes first, no later outcome is NULL, and STATUS 0x02 tells NULL from the others. -/
theorem nullOperandGivesNullResult : Obligations.NullOperandGivesNullResult := fun i s =>
  ⟨exec_of_kind_eq_null, fun _ hExec hStatus =>
    (outcomeOf_eq_null_iff i s).mp (outcomeOf_eq_null_of_exec_status hExec hStatus)⟩

/-- Settles O22: TYPE comes from the kind check alone, and STATUS 0x07 tells TYPE from every other outcome. -/
theorem wrongKindRaisesType : Obligations.WrongKindRaisesType := fun i s =>
  ⟨fun hNull hKind => exec_of_outcomeOf_eq_error ((outcomeOf_eq_type_iff i s).mpr ⟨hNull, hKind⟩),
    fun _ hExec hStatus =>
      (outcomeOf_eq_type_iff i s).mp (outcomeOf_eq_error_of_exec_status (cls := .type) hExec hStatus)⟩

/-- Settles O23: LENGTH comes from the length check alone, and STATUS 0x0B tells LENGTH from every other outcome. -/
theorem wrongLengthRaisesLength : Obligations.WrongLengthRaisesLength := fun i s =>
  ⟨fun n hKind hReq hLen => exec_of_outcomeOf_eq_error ((outcomeOf_eq_length_iff i s).mpr ⟨hKind, n, hReq, hLen⟩),
    fun _ hExec hStatus =>
      (outcomeOf_eq_length_iff i s).mp (outcomeOf_eq_error_of_exec_status (cls := .length) hExec hStatus)⟩

/-! ### Legal and illegal bytes (R80, R84, R215) -/

theorem rsvField_eq_one_iff (c : Byte) : rsvField c = 1#1 ↔ 128 ≤ c.toNat := by
  have hBit : (rsvField c).toNat = c.toNat / 128 % 2 := by simp [rsvField, Nat.shiftRight_eq_div_pow]
  rw [← BitVec.toNat_inj, hBit, BitVec.toNat_ofNat]
  omega

theorem opField_toNat (c : Byte) : (opField c).toNat = c.toNat % 16 := by
  simp [opField]

theorem kindField_toNat (c : Byte) : (kindField c).toNat = c.toNat / 16 % 8 := by
  simp [kindField, Nat.shiftRight_eq_div_pow]

/-- The legal bytes by the fields the decoder reads (R84). -/
theorem legalByte_eq_true_iff (c : Byte) :
    legalByte c = true ↔
      rsvField c ≠ 1#1 ∧ (1 ≤ (opField c).toNat ∧ (opField c).toNat ≤ 5) ∧ (kindField c).toNat ≤ 4 := by
  simp [legalByte, rsvField_eq_one_iff, opField_toNat, kindField_toNat, and_assoc]

/-- An OP code names the operation that carries it, or none when it is outside 1 to 5 (R81). -/
theorem opOfCode_cases (op : BitVec 4) :
    (∃ mk, opOfCode op = .ok mk ∧ (∀ k, opCode (mk k) = op ∧ (mk k).kind = k) ∧ 1 ≤ op.toNat ∧ op.toNat ≤ 5) ∨
      ∃ e, opOfCode op = .error e ∧ ¬ (1 ≤ op.toNat ∧ op.toNat ≤ 5) := by
  have hCode : ∀ n, op.toNat = n → BitVec.ofNat 4 n = op := fun n h => by simp [← h]
  unfold opOfCode
  split
  case h_6 h1 h2 h3 h4 h5 =>
    simp only [imp_false] at h1 h2 h3 h4 h5
    exact .inr ⟨_, rfl, by omega⟩
  all_goals
    next h => exact .inl ⟨_, rfl, fun k => ⟨hCode _ h, rfl⟩, by omega⟩

/-- A KIND code names the kind that carries it, or none when it is above 4 (R82). -/
theorem kindOfCode_cases (code : BitVec 3) :
    (∃ k, kindOfCode code = .ok k ∧ kindCode k = code ∧ code.toNat ≤ 4) ∨
      ∃ e, kindOfCode code = .error e ∧ ¬ code.toNat ≤ 4 := by
  have hCode : ∀ n, code.toNat = n → BitVec.ofNat 3 n = code := fun n h => by simp [← h]
  unfold kindOfCode
  split
  case h_6 h0 h1 h2 h3 h4 =>
    simp only [imp_false] at h0 h1 h2 h3 h4
    exact .inr ⟨_, rfl, by omega⟩
  all_goals
    next h => exact .inl ⟨_, rfl, hCode _ h, by omega⟩

/-- A legal byte decodes to a command with the byte's own codes; an illegal byte decodes to none (R84). -/
theorem decode_cases (c : Byte) :
    (∃ i, decode c = .ok i ∧ legalByte c = true ∧ opCode i = opField c ∧ kindCode i.kind = kindField c) ∨
      ∃ e, decode c = .error e ∧ legalByte c = false := by
  rw [← Bool.not_eq_true, legalByte_eq_true_iff]
  unfold decode
  by_cases hRsv : rsvField c = 1#1
  · exact .inr ⟨_, if_pos hRsv, fun ⟨h, _⟩ => h hRsv⟩
  · rw [if_neg hRsv]
    rcases opOfCode_cases (opField c) with ⟨mk, hMk, hOp, hRange⟩ | ⟨e, hErr, hRange⟩
    · rcases kindOfCode_cases (kindField c) with ⟨k, hK, hKind, hLe⟩ | ⟨e, hErr, hGt⟩
      · obtain ⟨hCode, hMkKind⟩ := hOp k
        exact .inl ⟨mk k, by rw [hMk, hK], ⟨hRsv, hRange, hLe⟩, hCode, by rw [hMkKind, hKind]⟩
      · exact .inr ⟨e, by rw [hMk, hErr], fun ⟨_, _, h⟩ => hGt h⟩
    · exact .inr ⟨e, by rw [hErr], fun ⟨_, h, _⟩ => hRange h⟩

theorem commandOutcome_of_decode_eq_ok {c : Byte} {i : Instr} (s : State) (h : decode c = .ok i) :
    commandOutcome c s = outcomeOf i s := by
  simp only [commandOutcome, h]

theorem commandOutcome_of_illegal {c : Byte} (s : State) (h : legalByte c = false) :
    commandOutcome c s = .error .illegalCommand := by
  rcases decode_cases c with ⟨i, -, hLegal, -⟩ | ⟨e, hDecode, -⟩
  · rw [hLegal] at h; cases h
  · simp only [commandOutcome, hDecode]

/-- Settles O20: an illegal byte decodes to no command, so its step commits ILLEGAL_COMMAND. -/
theorem illegalByteRaisesIllegalCommand : Obligations.IllegalByteRaisesIllegalCommand := by
  intro s c rest hp hIllegal
  rw [step_command hp, commandOutcome_of_illegal _ hIllegal]
  rfl

/-! ### Every failure is one commit (R211, R213) -/

/-- No command byte, legal or not, ends in RESOURCE (R211). -/
theorem commandOutcome_ne_resource (c : Byte) (s : State) : commandOutcome c s ≠ .error .resource := by
  rcases decode_cases c with ⟨i, hDecode, -⟩ | ⟨e, -, hIllegal⟩
  · rw [commandOutcome_of_decode_eq_ok s hDecode, ne_eq, outcomeOf_eq_error_iff]
    rintro (⟨-, -, h⟩ | ⟨-, h⟩)
    · cases h
    · simpa using eq_length_or_content_of_typedOutcome_eq_error h
  · simp [commandOutcome_of_illegal s hIllegal]

/-- The STATUS byte of an error: RESULT 3 under the class (R23, R213). -/
theorem statusByte_error (code : BitVec 3) : statusByte code .error = 0x03#8 ||| (code.setWidth 8 <<< 2) := by
  revert code
  decide

/-- Settles O25: a step that leaves RESULT = ERROR has committed an error, and the error is never RESOURCE. -/
theorem failureClearsOutputs : Obligations.FailureClearsOutputs := by
  intro s t c rest hp hStep hResult
  have ht := eq_commit_of_step_command hp hStep
  rw [ht] at hResult
  obtain ⟨cls, hError⟩ := exists_eq_error_of_resultField_commit hResult
  have hClass : errClassField t.status = errorCode cls := by
    rw [ht, hError]
    exact errClassField_statusByte _ _
  rw [hClass, ← statusByte_error]
  refine ⟨by rw [ht, hError]; rfl, ?_⟩
  cases cls with
  | type => exact .inl rfl
  | length => exact .inr (.inl rfl)
  | content => exact .inr (.inr (.inl rfl))
  | resource => exact absurd hError (commandOutcome_ne_resource _ _)
  | illegalCommand => exact .inr (.inr (.inr rfl))

/-! ### The order of the checks, over the bits of the byte (R214) -/

theorem kindCode_toNat_inj {k l : Kind} : (kindCode k).toNat = (kindCode l).toNat ↔ k = l := by
  cases k <;> cases l <;> decide

theorem kindCode_expectedKind (i : Instr) :
    (kindCode (expectedKind i)).toNat = if (opCode i).toNat = 1 then 1 else if (opCode i).toNat = 4 then 3 else 4 := by
  cases i <;> rfl

theorem requiredLength_eq (i : Instr) :
    requiredLength i =
      if (opCode i).toNat = 1 then none
      else some (if (opCode i).toNat = 2 then 6 else if (opCode i).toNat = 4 then 26 else 16) := by
  cases i <;> rfl

theorem opCode_toNat_eq_four_iff (i : Instr) : (opCode i).toNat = 4 ↔ ∃ k, i = .decode k := by
  cases i <;> simp [opCode]

/-- A command of the expected kind that fails neither on its length nor on its content gives a value (R101). -/
theorem commit_outcomeOf_status_eq_value {i : Instr} {s : State} (hKind : i.kind = expectedKind i)
    (hLen : ∀ n, requiredLength i = some n → s.inLen.toNat = n) (hContent : (∃ k, i = .decode k) → ¬ contentFails s)
    (u : State) : (commit (outcomeOf i s) u).status = 0x01#8 := by
  rw [outcomeOf_of_kind_expected s hKind]
  rcases typedOutcome_error_or_value i s with h | h | ⟨bytes, h⟩ | ⟨w, h⟩
  · obtain ⟨n, hReq, hNe⟩ := (typedOutcome_eq_length_iff i s).mp h
    exact absurd (hLen n hReq) hNe
  · obtain ⟨hDecode, -, hFails⟩ := (typedOutcome_eq_content_iff i s).mp h
    exact absurd hFails (hContent hDecode)
  · rw [h]; rfl
  · rw [h]; rfl

/-- A step on a command byte commits the outcome the byte has in the state before it. -/
theorem step_command_taking {s : State} {c : Byte} {rest : List HostEvent} (hp : s.pending = .wr 0x00#8 c :: rest) :
    step s = .next (commit (commandOutcome c s) (taking s c rest)) := by
  rw [step_command hp, commandOutcome_congr c (s := { s with pending := rest }) (u := s) rfl rfl rfl rfl]

/-- Settles O19: the fields of a legal byte are the codes of its command, and each clause of the list is one of the
checks the command makes, in the order it makes them. -/
theorem outcomePriority : Obligations.OutcomePriority := by
  intro s c rest hp
  refine ⟨_, step_command_taking hp, ?_⟩
  rcases decode_cases c with ⟨i, hDecode, hLegal, hOp, hKind⟩ | ⟨e, hDecode, hIllegal⟩
  case inr =>
    simp only [commandOutcome_of_illegal _ hIllegal, hIllegal]
    exact ⟨fun _ => rfl, nofun, nofun, nofun, nofun, nofun⟩
  case inl =>
    have hNullIff : (kindCode i.kind).toNat = 0 ↔ i.kind = .null := kindCode_toNat_inj (l := .null)
    simp only [commandOutcome_of_decode_eq_ok _ hDecode, ← opField_toNat, ← kindField_toNat, ← hOp, ← hKind,
      ← kindCode_expectedKind, ne_eq, hNullIff, kindCode_toNat_inj]
    have hRequired := requiredLength_eq i
    refine ⟨by simp [hLegal], fun _ => ?null, fun _ hNull hWrong => ?type, fun _ _ hExp hNotPack hLen => ?length,
      fun _ _ hExp hFour hLen hFails => ?content, fun _ _ hExp hLen hContent => ?value⟩
    case null =>
      intro hNull
      rw [(outcomeOf_eq_null_iff i _).mpr hNull]
      rfl
    case type =>
      rw [(outcomeOf_eq_type_iff i _).mpr ⟨hNull, hWrong⟩]
      rfl
    case length =>
      rw [if_neg hNotPack] at hRequired
      rw [(outcomeOf_eq_length_iff i _).mpr ⟨hExp, _, hRequired, hLen⟩]
      rfl
    case content =>
      obtain ⟨k, rfl⟩ := (opCode_toNat_eq_four_iff i).mp hFour
      obtain rfl : k = .text := hExp
      rw [(outcomeOf_eq_content_iff _ _).mpr ⟨rfl, BitVec.eq_of_toNat_eq hLen, hFails⟩]
      rfl
    case value =>
      refine commit_outcomeOf_status_eq_value hExp (fun n hReq => ?_)
        (fun hDec => hContent ((opCode_toNat_eq_four_iff i).mpr hDec)) _
      rw [hReq] at hRequired
      split at hRequired
      · cases hRequired
      · next hNotPack => exact (hLen.resolve_left hNotPack).trans (Option.some.inj hRequired).symm

end Sys2Proof.Machine
end

section
/-!
PROOFS. The reset value NONE of STATUS.RESULT (70_reset_and_hazards.md R242): every command replaces it, no read and no
store touches it, and only the reset input brings it back.
-/

namespace Sys2Proof.Machine

open Sys2Proof.Claims Sys2Proof.Safety

/-- Every commit gives a result: VALUE, NULL or ERROR (R24, R242). -/
theorem resultField_commit_cases (o : CommandOutcome) (s : State) :
    resultField (commit o s).status = 1#2 ∨ resultField (commit o s).status = 2#2 ∨
      resultField (commit o s).status = 3#2 := by
  rw [resultField_commit]
  cases o with
  | valueBytes _ | valueInt _ => exact .inl rfl
  | null => exact .inr (.inl rfl)
  | error _ => exact .inr (.inr rfl)

theorem resultField_commit_ne_none (o : CommandOutcome) (s : State) : resultField (commit o s).status ≠ 0#2 := by
  rcases resultField_commit_cases o s with h | h | h <;> rw [h] <;> decide

/-- Settles O31: of the five things a step can do, a command commits a result, a read and a store keep STATUS, and a
reset alone clears it. -/
theorem noneIsOnlyTheEffectOfReset : Obligations.NoneIsOnlyTheEffectOfReset := by
  intro s t e rest hp hStep
  have hEvent := step_cases hStep
  rw [hp] at hEvent
  rcases hEvent with ⟨⟨⟩, -⟩ | ⟨a, _, ⟨⟩, rfl⟩ | ⟨a, v, _, ⟨⟩, ha, rfl⟩ | ⟨c, _, ⟨⟩, rfl⟩ | ⟨_, ⟨⟩, rfl⟩
  · exact ⟨nofun, .inr, nofun⟩
  · exact ⟨fun h => absurd (eq_of_beq h) ha, fun h => .inr (by rwa [storeByte_status] at h), nofun⟩
  · exact ⟨fun _ => resultField_commit_cases _ _, fun h => absurd h (resultField_commit_ne_none _ _), nofun⟩
  · exact ⟨nofun, fun _ => .inl rfl, fun _ => ⟨rfl, rfl, rfl, rfl⟩⟩

end Sys2Proof.Machine
end

section
/-!
PROOFS. The laws of the Base32 codec (43_encoder.md R164, R165; 44_decoder.md R187): an encoded text is its groups'
characters, the characters decode to the groups, and the groups make the stream again.
-/

namespace Sys2Proof.Machine

open Sys2Proof.Claims

/-! ### An encoded text and its groups (R160, R161) -/

/-- The 26 groups of the encoding stream (R160). -/
def encodeSymbols (b : Vector Byte 16) : Vector Symbol 26 := Vector.ofFn fun k => group (encodeStream b) k.val

theorem encodeSymbols_getElem (b : Vector Byte 16) (k : Fin 26) :
    (encodeSymbols b)[k.val] = group (encodeStream b) k.val := by
  simp [encodeSymbols]

theorem encode26_getElem (b : Vector Byte 16) (k : Fin 26) :
    (encode26 b)[k.val] = encChar (encodeSymbols b)[k.val] := by
  rw [encode26_char, encodeSymbols_getElem]

theorem decodeStream_encodeSymbols (b : Vector Byte 16) : decodeStream (encodeSymbols b) = encodeStream b :=
  decodeStream_groups (encodeStream b)

/-- The groups are the base-32 digits of the big-endian value of the bytes. -/
theorem digitsValue_encodeSymbols (b : Vector Byte 16) :
    digitsValue 32 ((encodeSymbols b).toList.map BitVec.toNat) = bigEndian b.toList := by
  rw [← decodeStream_toNat, decodeStream_encodeSymbols, encodeStream_toNat]

/-- The two pad bits are zero, so the first group is at most 7 (R121, R160). -/
theorem encodeSymbols_first_le (b : Vector Byte 16) : (encodeSymbols b)[0].toNat ≤ 7 := by
  have hStream : (encodeStream b).toNat < 2 ^ 128 := by
    rw [encodeStream_toNat]
    simpa using bigEndian_lt b.toList
  have hGroup : (encodeSymbols b)[0] = group (encodeStream b) 0 := encodeSymbols_getElem b 0
  rw [hGroup, group_toNat _ 0 (by decide)]
  omega

/-! ### Decoding an encoded text (R187, first law) -/

theorem symbols_encode26 (p : Config.Params) (b : Vector Byte 16) : symbols p (encode26 b) = some (encodeSymbols b) :=
  (symbols_eq_some _ _ _).mpr fun k => by rw [encode26_getElem, decTable_encChar]

/-- A text whose first symbol is at most 7 decodes under either value of P_STRICT_FIRST (R183). -/
theorem decode26_of_symbols {p : Config.Params} {s : Vector Byte 26} {u : Vector Symbol 26}
    (hs : symbols p s = some u) (hFirst : u[0].toNat ≤ 7) : decode26 p s = some (streamBytes (decodeStream u)) := by
  rw [decode26_eq_map_symbols (decTable_first_of_symbols hs) fun _ => hFirst, hs, Option.map_some]

/-- Settles O46: the characters decode to the groups, the groups make the stream again, the stream the bytes, and the
first group passes the strict check. -/
theorem decodeInvertsEncode26 : Obligations.DecodeInvertsEncode26 := fun p b =>
  calc decode26 p (encode26 b)
      _ = some (streamBytes (decodeStream (encodeSymbols b))) :=
        decode26_of_symbols (symbols_encode26 p b) (encodeSymbols_first_le b)
      _ = some b := by rw [decodeStream_encodeSymbols, streamBytes_encodeStream]

/-! ### The characters of an encoded text (R164) -/

theorem encChar_mem_encTable (v : Symbol) : encChar v ∈ encTable.toList :=
  Vector.mem_toList_iff.mpr (Vector.getElem_mem v.isLt)

theorem encChar_digit_range : ∀ v : Symbol, v.toNat ≤ 7 → 0x30 ≤ (encChar v).toNat ∧ (encChar v).toNat ≤ 0x37 := by
  decide

/-- Settles O44: every character is one of ENC_TABLE's, and a first group of at most 7 has a digit's character. -/
theorem encodedTextIsCanonical : Obligations.EncodedTextIsCanonical := by
  intro b
  refine ⟨fun k => ?_, ?_⟩
  · rw [encode26_getElem]
    exact encChar_mem_encTable _
  · have hChar : (encode26 b)[0] = encChar (encodeSymbols b)[0] := encode26_getElem b 0
    rw [hChar]
    exact encChar_digit_range _ (encodeSymbols_first_le b)

/-! ### Order (R145, R165) -/

/-- Values compare as their digit vectors do, from the front. -/
theorem digitsValue_toList_lt_iff {w n : Nat} (a b : Vector (BitVec w) n) :
    digitsValue (2 ^ w) (a.toList.map BitVec.toNat) < digitsValue (2 ^ w) (b.toList.map BitVec.toNat) ↔
      ∃ i : Fin n, (∀ j : Fin n, j.val < i.val → a[j.val] = b[j.val]) ∧ a[i.val].toNat < b[i.val].toNat := by
  rw [digitsValue_lt_iff toNat_lt_base toNat_lt_base (by simp)]
  constructor
  · rintro ⟨i, hi, hPrefix, hLt⟩
    refine ⟨⟨i, by simpa using hi⟩, fun j hj => BitVec.eq_of_toNat_eq ?_, by simpa using hLt⟩
    simpa using hPrefix j.val hj
  · rintro ⟨i, hPrefix, hLt⟩
    refine ⟨i.val, by simp, fun j hj => ?_, by simpa using hLt⟩
    simpa using congrArg BitVec.toNat (hPrefix ⟨j, by omega⟩ hj)

theorem bigEndian_lt_iff_lexLess {n : Nat} (a b : Vector Byte n) :
    bigEndian a.toList < bigEndian b.toList ↔ lexLess a b :=
  digitsValue_toList_lt_iff a b

/-- ENC_TABLE is strictly increasing (R120, R128). -/
theorem encChar_strictMono : ∀ v w : Symbol, v.toNat < w.toNat → (encChar v).toNat < (encChar w).toNat := by
  decide

theorem encChar_lt_iff (v w : Symbol) : (encChar v).toNat < (encChar w).toNat ↔ v.toNat < w.toNat := by
  refine ⟨fun h => ?_, encChar_strictMono v w⟩
  rcases Nat.lt_trichotomy v.toNat w.toNat with hlt | heq | hgt
  · exact hlt
  · rw [BitVec.eq_of_toNat_eq heq] at h
    exact absurd h (Nat.lt_irrefl _)
  · exact absurd h (Nat.lt_asymm (encChar_strictMono w v hgt))

theorem encChar_inj {v w : Symbol} : encChar v = encChar w ↔ v = w := by
  refine ⟨fun h => ?_, congrArg encChar⟩
  have hSymbol := congrArg alphabetIndex h
  rw [alphabetIndex_encChar, alphabetIndex_encChar] at hSymbol
  exact Option.some.inj hSymbol

/-- Settles O45: the groups are the base-32 digits of the big-endian value, and their characters compare as they do. -/
theorem encodingPreservesOrder : Obligations.EncodingPreservesOrder := by
  intro a b
  rw [← digitsValue_encodeSymbols, ← digitsValue_encodeSymbols]
  refine (digitsValue_toList_lt_iff (encodeSymbols a) (encodeSymbols b)).trans ?_
  simp only [lexLess, encode26_getElem, encChar_lt_iff, encChar_inj]

/-! ### Letter case (R127, R128) -/

theorem decTable_encChar_lower :
    ∀ (p : Config.Params) (v : Symbol), 10 ≤ v.toNat → decTable p (encChar v + 0x20#8) = some v := by
  have hTable : ∀ (foldO strict : Bool) (v : Symbol), 10 ≤ v.toNat →
      decTable { pFoldO := foldO, pStrictFirst := strict } (encChar v + 0x20#8) = some v := by decide
  exact fun p => hTable p.pFoldO p.pStrictFirst

theorem upperByte_encChar : ∀ v : Symbol, upperByte (encChar v) = encChar v := by decide

theorem upperByte_encChar_lower : ∀ v : Symbol, 10 ≤ v.toNat → upperByte (encChar v + 0x20#8) = encChar v := by decide

/-- A stream of symbols whose first is at most 7 has its two top bits zero (R181). -/
theorem decodeStream_lt_of_first_le {u : Vector Symbol 26} (hFirst : u[0].toNat ≤ 7) :
    (decodeStream u).toNat < 2 ^ 128 := by
  have hTail : digitsValue 32 (u.toList.tail.map BitVec.toNat) < 2 ^ 125 := by
    simpa using digitsValue_lt (b := 32) (toNat_lt_base (vs := u.toList.tail))
  have hSelf : u = u.set 0 u[0] := by simp
  rw [hSelf, decodeStream_set_zero_toNat]
  omega

/-- Encoding the bytes of such a stream gives its symbols' characters. -/
theorem encode26_streamBytes_decodeStream {u : Vector Symbol 26} (hFirst : u[0].toNat ≤ 7) (k : Fin 26) :
    (encode26 (streamBytes (decodeStream u)))[k.val] = encChar u[k.val] := by
  rw [encode26_char, encodeStream_streamBytes _ (decodeStream_lt_of_first_le hFirst), group_decodeStream]

/-- Settles O47: each character has the symbol it is a letter of, in either case, and encoding the symbols gives their
upper-case characters. -/
theorem encodeInvertsDecodeUpToCase : Obligations.EncodeInvertsDecodeUpToCase := by
  intro p s hChars hFirst
  choose v hv using hChars
  have hDec : ∀ k : Fin 26, decTable p s[k.val] = some (v k) := by
    intro k
    rcases hv k with h | ⟨hLetter, h⟩
    · rw [h, decTable_encChar]
    · rw [h, decTable_encChar_lower p _ hLetter]
  have hUpper : ∀ k : Fin 26, upperByte s[k.val] = encChar (v k) := by
    intro k
    rcases hv k with h | ⟨hLetter, h⟩
    · rw [h, upperByte_encChar]
    · rw [h, upperByte_encChar_lower _ hLetter]
  have hSymbols : symbols p s = some (Vector.ofFn v) := (symbols_eq_some _ _ _).mpr fun k => by simp [hDec]
  have hRange : (Vector.ofFn v)[0].toNat ≤ 7 := hFirst _ (decTable_first_of_symbols hSymbols)
  refine ⟨_, decode26_of_symbols hSymbols hRange, Vector.ext fun k hk => ?_⟩
  rw [encode26_streamBytes_decodeStream hRange ⟨k, hk⟩, Vector.getElem_map, hUpper ⟨k, hk⟩, Vector.getElem_ofFn]

/-- DEC_TABLE has one entry for both cases of a letter, of the alphabet or not (R127). -/
theorem decTable_lowerByte (p : Config.Params) (b : Byte) : decTable p (lowerByte b) = decTable p b := by
  have hLetter : ∀ (foldO strict : Bool) (b : Byte), 0x41 ≤ b.toNat ∧ b.toNat ≤ 0x5A →
      decTable { pFoldO := foldO, pStrictFirst := strict } (b + 0x20#8) =
        decTable { pFoldO := foldO, pStrictFirst := strict } b := by decide
  unfold lowerByte
  split
  · next h => exact hLetter p.pFoldO p.pStrictFirst b h
  · rfl

/-- A byte and its upper case have one lower case. -/
theorem lowerByte_upperByte (b : Byte) : lowerByte (upperByte b) = lowerByte b := by
  revert b
  decide

theorem decTable_upperByte (p : Config.Params) (b : Byte) : decTable p (upperByte b) = decTable p b := by
  rw [← decTable_lowerByte, lowerByte_upperByte, decTable_lowerByte]

/-- A map of the bytes that keeps every DEC_TABLE entry keeps the symbols. -/
theorem symbols_map {p : Config.Params} {f : Byte → Byte} (hf : ∀ b, decTable p (f b) = decTable p b)
    (s : Vector Byte 26) : symbols p (s.map f) = symbols p s := by
  cases hs : symbols p s with
  | none =>
    obtain ⟨k, hk⟩ := (symbols_eq_none p s).mp hs
    exact (symbols_eq_none _ _).mpr ⟨k, by rw [Vector.getElem_map, hf, hk]⟩
  | some u =>
    exact (symbols_eq_some _ _ _).mpr fun k => by rw [Vector.getElem_map, hf, (symbols_eq_some p s u).mp hs k]

/-- Of a text the decoder reads its symbols only (R184). -/
theorem decode26_congr {p : Config.Params} {s t : Vector Byte 26} (h : symbols p s = symbols p t) :
    decode26 p s = decode26 p t := by
  unfold decode26
  rw [h]

/-- Settles O48: changing the case of letters keeps every DEC_TABLE entry, so it keeps the symbols. -/
theorem decodingIgnoresCase : Obligations.DecodingIgnoresCase := fun p s =>
  ⟨decode26_congr (symbols_map (decTable_upperByte p) s), decode26_congr (symbols_map (decTable_lowerByte p) s)⟩

end Sys2Proof.Machine
end


section
/-!
PROOFS. The laws of the timestamp codec (42_timestamp_codec.md R145; 45_timestamp_extractor.md R201): the packed bytes
are the base-256 digits of the timestamp, so they give it back, sort as it does, and EXTRACT reads it from them.
-/

namespace Sys2Proof.Machine

open Sys2Proof.Claims

/-- The packed bytes are the six low base-256 digits of the word. -/
theorem bigEndian_pack48 (x : BitVec 64) : bigEndian (pack48 x).toList = x.toNat % 2 ^ 48 := by
  have hDigits : (pack48 x).toList.map BitVec.toNat =
      (List.range 6).map fun i => x.toNat / 256 ^ (6 - 1 - i) % 256 := by
    apply List.ext_getElem (by simp)
    intro i hi _
    simpa using pack48_byte x ⟨i, by simpa using hi⟩
  calc bigEndian (pack48 x).toList
      _ = x.toNat % 256 ^ 6 := by rw [bigEndian, hDigits, digitsValue_digits]
      _ = x.toNat % 2 ^ 48 := rfl

theorem unpack48_pack48_toNat (x : BitVec 64) : (unpack48 (pack48 x)).toNat = x.toNat % 2 ^ 48 := by
  rw [unpack48_toNat, bigEndian_pack48]

theorem pack48_unpack48 (b : Vector Byte 6) : pack48 (unpack48 b) = b := by
  apply Vector.ext
  intro i hi
  apply BitVec.eq_of_toNat_eq
  have hPacked := pack48_byte (unpack48 b) ⟨i, hi⟩
  have hByte := bigEndian_byte b.toList i (by simpa using hi)
  rw [unpack48_toNat] at hPacked
  exact hPacked.trans (by simpa using hByte)

/-- Settles O41: the bytes are the digits of the value reduced to 48 bits. -/
theorem timestampPackAndUnpackAreInverse : Obligations.TimestampPackAndUnpackAreInverse :=
  ⟨unpack48_pack48_toNat, bigEndian_pack48, pack48_unpack48⟩

/-- Settles O42: below 2^48 the big-endian value of the bytes is the timestamp, and byte sequences compare as their
values do. -/
theorem packedTimestampsSortByTime : Obligations.PackedTimestampsSortByTime := by
  intro x y hx hy
  rw [← bigEndian_lt_iff_lexLess, bigEndian_pack48, bigEndian_pack48, Nat.mod_eq_of_lt hx, Nat.mod_eq_of_lt hy]

/-- Settles O43: EXTRACT unpacks the six bytes in front, which are those of `pack48 x`. -/
theorem extractRecoversThePackedTimestamp : Obligations.ExtractRecoversThePackedTimestamp := by
  intro s x hLen hx hFront
  have hOperand : operand6 s = pack48 x := Vector.ext fun i hi =>
    (firstBytes_byte 6 (by decide) s.inBuf ⟨i, hi⟩).trans (hFront ⟨i, hi⟩)
  have hValue : unpack48 (operand6 s) = x := BitVec.eq_of_toNat_eq <| by
    rw [hOperand, unpack48_pack48_toNat, Nat.mod_eq_of_lt hx]
  exact ⟨_, exec_of_typedOutcome_eq_valueInt rfl (checkLength_right _ hLen), hValue, rfl⟩

end Sys2Proof.Machine
end


section
/-!
PROOFS. The shift-and-mask rows of ENCODE and DECODE (43_encoder.md R162; 44_decoder.md R186). Five bytes and eight
symbols are the same 40 bits, so the rows come in blocks: each block keeps the value of its digits, and digit sequences
of one value are one sequence.
-/

namespace Sys2Proof.Machine

open Sys2Proof.Claims

/-! ### Shifts and masks as quotients and remainders -/

/-- A mask of `n` bits from bit `k` on, shifted down. -/
theorem mask_shiftRight (x n k : Nat) : (x &&& (2 ^ n - 1) <<< k) >>> k = x / 2 ^ k % 2 ^ n := by
  rw [Nat.shiftRight_and_distrib, Nat.shiftLeft_shiftRight, Nat.and_two_pow_sub_one_eq_mod, Nat.shiftRight_eq_div_pow]

/-- Bits joined below a shifted number. -/
theorem shiftLeft_or {y k : Nat} (x : Nat) (h : y < 2 ^ k) : x <<< k ||| y = x * 2 ^ k + y := by
  rw [← Nat.shiftLeft_add_eq_or_of_lt h, Nat.shiftLeft_eq]

theorem digitsValue_append (b : Nat) (ds es : List Nat) :
    digitsValue b (ds ++ es) = digitsValue b ds * b ^ es.length + digitsValue b es := by
  rw [digitsValue, List.foldl_append, digitsValue_foldl, ← digitsValue]

/-! ### A block of five bytes and eight symbols -/

/-- The rows of R162 for five bytes. -/
def symbolRows (b₀ b₁ b₂ b₃ b₄ : Nat) : List Nat :=
  [(b₀ &&& 0xF8) >>> 3,
   ((b₀ &&& 0x07) <<< 2) ||| ((b₁ &&& 0xC0) >>> 6),
   (b₁ &&& 0x3E) >>> 1,
   ((b₁ &&& 0x01) <<< 4) ||| ((b₂ &&& 0xF0) >>> 4),
   ((b₂ &&& 0x0F) <<< 1) ||| ((b₃ &&& 0x80) >>> 7),
   (b₃ &&& 0x7C) >>> 2,
   ((b₃ &&& 0x03) <<< 3) ||| ((b₄ &&& 0xE0) >>> 5),
   b₄ &&& 0x1F]

/-- The rows of R186 for eight symbols. -/
def byteRows (v₀ v₁ v₂ v₃ v₄ v₅ v₆ v₇ : Nat) : List Nat :=
  [(v₀ <<< 3) ||| ((v₁ &&& 0x1C) >>> 2),
   ((v₁ &&& 0x03) <<< 6) ||| (v₂ <<< 1) ||| ((v₃ &&& 0x10) >>> 4),
   ((v₃ &&& 0x0F) <<< 4) ||| ((v₄ &&& 0x1E) >>> 1),
   ((v₄ &&& 0x01) <<< 7) ||| (v₅ <<< 2) ||| ((v₆ &&& 0x18) >>> 3),
   ((v₆ &&& 0x07) <<< 5) ||| v₇]

theorem symbolRows_eq {b₀ b₁ b₂ b₃ b₄ : Nat} (h₀ : b₀ < 256) (h₁ : b₁ < 256) (h₂ : b₂ < 256) (h₃ : b₃ < 256)
    (h₄ : b₄ < 256) :
    symbolRows b₀ b₁ b₂ b₃ b₄ =
      [b₀ / 8, b₀ % 8 * 4 + b₁ / 64, b₁ / 2 % 32, b₁ % 2 * 16 + b₂ / 16, b₂ % 16 * 2 + b₃ / 128, b₃ / 4 % 32,
       b₃ % 4 * 8 + b₄ / 32, b₄ % 32] := by
  rw [symbolRows, show (b₀ &&& 0xF8) >>> 3 = b₀ / 8 % 32 from mask_shiftRight b₀ 5 3,
    show (b₁ &&& 0xC0) >>> 6 = b₁ / 64 % 4 from mask_shiftRight b₁ 2 6,
    show (b₁ &&& 0x3E) >>> 1 = b₁ / 2 % 32 from mask_shiftRight b₁ 5 1,
    show (b₂ &&& 0xF0) >>> 4 = b₂ / 16 % 16 from mask_shiftRight b₂ 4 4,
    show (b₃ &&& 0x80) >>> 7 = b₃ / 128 % 2 from mask_shiftRight b₃ 1 7,
    show (b₃ &&& 0x7C) >>> 2 = b₃ / 4 % 32 from mask_shiftRight b₃ 5 2,
    show (b₄ &&& 0xE0) >>> 5 = b₄ / 32 % 8 from mask_shiftRight b₄ 3 5,
    show b₀ &&& 0x07 = b₀ % 8 from Nat.and_two_pow_sub_one_eq_mod b₀ 3,
    show b₁ &&& 0x01 = b₁ % 2 from Nat.and_two_pow_sub_one_eq_mod b₁ 1,
    show b₂ &&& 0x0F = b₂ % 16 from Nat.and_two_pow_sub_one_eq_mod b₂ 4,
    show b₃ &&& 0x03 = b₃ % 4 from Nat.and_two_pow_sub_one_eq_mod b₃ 2,
    show b₄ &&& 0x1F = b₄ % 32 from Nat.and_two_pow_sub_one_eq_mod b₄ 5,
    shiftLeft_or _ (by omega), shiftLeft_or _ (by omega), shiftLeft_or _ (by omega), shiftLeft_or _ (by omega)]
  simp only [List.cons.injEq, and_true, true_and]
  omega

theorem byteRows_eq {v₀ v₁ v₂ v₃ v₄ v₅ v₆ v₇ : Nat} (h₁ : v₁ < 32) (h₂ : v₂ < 32) (h₃ : v₃ < 32) (h₄ : v₄ < 32)
    (h₅ : v₅ < 32) (h₆ : v₆ < 32) (h₇ : v₇ < 32) :
    byteRows v₀ v₁ v₂ v₃ v₄ v₅ v₆ v₇ =
      [v₀ * 8 + v₁ / 4, v₁ % 4 * 64 + (v₂ * 2 + v₃ / 16), v₃ % 16 * 16 + v₄ / 2, v₄ % 2 * 128 + (v₅ * 4 + v₆ / 8),
       v₆ % 8 * 32 + v₇] := by
  rw [byteRows, show (v₁ &&& 0x1C) >>> 2 = v₁ / 4 % 8 from mask_shiftRight v₁ 3 2,
    show (v₃ &&& 0x10) >>> 4 = v₃ / 16 % 2 from mask_shiftRight v₃ 1 4,
    show (v₄ &&& 0x1E) >>> 1 = v₄ / 2 % 16 from mask_shiftRight v₄ 4 1,
    show (v₆ &&& 0x18) >>> 3 = v₆ / 8 % 4 from mask_shiftRight v₆ 2 3,
    show v₁ &&& 0x03 = v₁ % 4 from Nat.and_two_pow_sub_one_eq_mod v₁ 2,
    show v₃ &&& 0x0F = v₃ % 16 from Nat.and_two_pow_sub_one_eq_mod v₃ 4,
    show v₄ &&& 0x01 = v₄ % 2 from Nat.and_two_pow_sub_one_eq_mod v₄ 1,
    show v₆ &&& 0x07 = v₆ % 8 from Nat.and_two_pow_sub_one_eq_mod v₆ 3, Nat.or_assoc, Nat.or_assoc,
    shiftLeft_or v₀ (by omega), shiftLeft_or v₂ (by omega), shiftLeft_or (v₁ % 4) (by omega),
    shiftLeft_or (v₃ % 16) (by omega), shiftLeft_or v₅ (by omega), shiftLeft_or (v₄ % 2) (by omega),
    shiftLeft_or (v₆ % 8) (by omega)]
  simp only [List.cons.injEq, and_true]
  omega

/-- A block keeps its 40 bits: the symbols' base-32 value is the bytes' base-256 value. -/
theorem digitsValue_symbolRows {b₀ b₁ b₂ b₃ b₄ : Nat} (h₀ : b₀ < 256) (h₁ : b₁ < 256) (h₂ : b₂ < 256)
    (h₃ : b₃ < 256) (h₄ : b₄ < 256) :
    digitsValue 32 (symbolRows b₀ b₁ b₂ b₃ b₄) = digitsValue 256 [b₀, b₁, b₂, b₃, b₄] := by
  rw [symbolRows_eq h₀ h₁ h₂ h₃ h₄]
  simp only [digitsValue, List.foldl_cons, List.foldl_nil]
  omega

theorem symbolRows_lt {b₀ b₁ b₂ b₃ b₄ : Nat} (h₀ : b₀ < 256) (h₁ : b₁ < 256) (h₂ : b₂ < 256) (h₃ : b₃ < 256)
    (h₄ : b₄ < 256) : ∀ d ∈ symbolRows b₀ b₁ b₂ b₃ b₄, d < 32 := by
  rw [symbolRows_eq h₀ h₁ h₂ h₃ h₄]
  simp only [List.forall_mem_cons, List.not_mem_nil, false_imp_iff, implies_true, and_true]
  omega

/-- A block keeps its 40 bits: the bytes' base-256 value is the symbols' base-32 value. -/
theorem digitsValue_byteRows {v₀ v₁ v₂ v₃ v₄ v₅ v₆ v₇ : Nat} (h₁ : v₁ < 32) (h₂ : v₂ < 32) (h₃ : v₃ < 32)
    (h₄ : v₄ < 32) (h₅ : v₅ < 32) (h₆ : v₆ < 32) (h₇ : v₇ < 32) :
    digitsValue 256 (byteRows v₀ v₁ v₂ v₃ v₄ v₅ v₆ v₇) = digitsValue 32 [v₀, v₁, v₂, v₃, v₄, v₅, v₆, v₇] := by
  rw [byteRows_eq h₁ h₂ h₃ h₄ h₅ h₆ h₇]
  simp only [digitsValue, List.foldl_cons, List.foldl_nil]
  omega

theorem byteRows_lt {v₀ v₁ v₂ v₃ v₄ v₅ v₆ v₇ : Nat} (h₀ : v₀ < 32) (h₁ : v₁ < 32) (h₂ : v₂ < 32) (h₃ : v₃ < 32)
    (h₄ : v₄ < 32) (h₅ : v₅ < 32) (h₆ : v₆ < 32) (h₇ : v₇ < 32) :
    ∀ d ∈ byteRows v₀ v₁ v₂ v₃ v₄ v₅ v₆ v₇, d < 256 := by
  rw [byteRows_eq h₁ h₂ h₃ h₄ h₅ h₆ h₇]
  simp only [List.forall_mem_cons, List.not_mem_nil, false_imp_iff, implies_true, and_true]
  omega

/-! ### ENCODE: one byte of two symbols, and three blocks (R162) -/

theorem encodeGroups_eq_append (b : Nat → Nat) :
    encodeGroups b = [(b 0 &&& 0xE0) >>> 5, b 0 &&& 0x1F] ++ symbolRows (b 1) (b 2) (b 3) (b 4) (b 5) ++
      symbolRows (b 6) (b 7) (b 8) (b 9) (b 10) ++ symbolRows (b 11) (b 12) (b 13) (b 14) (b 15) := rfl

theorem encodeGroups_first_eq {x : Nat} (h : x < 256) : [(x &&& 0xE0) >>> 5, x &&& 0x1F] = [x / 32, x % 32] := by
  rw [show (x &&& 0xE0) >>> 5 = x / 32 % 8 from mask_shiftRight x 3 5,
    show x &&& 0x1F = x % 32 from Nat.and_two_pow_sub_one_eq_mod x 5, show x / 32 % 8 = x / 32 by omega]

theorem encodeGroups_lt {b : Nat → Nat} (hb : ∀ j, b j < 256) : ∀ d ∈ encodeGroups b, d < 32 := by
  have hFirst : ∀ d ∈ [b 0 / 32, b 0 % 32], d < 32 := by
    have := hb 0
    simp only [List.forall_mem_cons, List.not_mem_nil, false_imp_iff, implies_true, and_true]
    omega
  rw [encodeGroups_eq_append, encodeGroups_first_eq (hb 0)]
  simp only [List.forall_mem_append]
  exact ⟨⟨⟨hFirst, symbolRows_lt (hb _) (hb _) (hb _) (hb _) (hb _)⟩, symbolRows_lt (hb _) (hb _) (hb _) (hb _) (hb _)⟩,
    symbolRows_lt (hb _) (hb _) (hb _) (hb _) (hb _)⟩

/-- The rows of R162 have the big-endian value of the 16 bytes. -/
theorem digitsValue_encodeGroups {b : Nat → Nat} (hb : ∀ j, b j < 256) :
    digitsValue 32 (encodeGroups b) = digitsValue 256 ((List.range 16).map b) := by
  have hBytes : (List.range 16).map b = [b 0] ++ [b 1, b 2, b 3, b 4, b 5] ++ [b 6, b 7, b 8, b 9, b 10] ++
    [b 11, b 12, b 13, b 14, b 15] := rfl
  have hFirst : digitsValue 32 [b 0 / 32, b 0 % 32] = digitsValue 256 [b 0] := by
    simp only [digitsValue, List.foldl_cons, List.foldl_nil]
    omega
  have hLength : ∀ x₀ x₁ x₂ x₃ x₄ : Nat, (symbolRows x₀ x₁ x₂ x₃ x₄).length = 8 := fun _ _ _ _ _ => rfl
  rw [hBytes, encodeGroups_eq_append, encodeGroups_first_eq (hb 0)]
  simp only [digitsValue_append, hFirst, digitsValue_symbolRows (hb _) (hb _) (hb _) (hb _) (hb _), hLength,
    List.length_cons, List.length_nil]
  rfl

/-- The rows of R162 are the groups of the stream (R160). -/
theorem encodeGroups_eq_encodeSymbols {b : Nat → Nat} {v : Vector Byte 16} (h : ∀ j (hj : j < 16), v[j].toNat = b j)
    (hb : ∀ j, b j < 256) : encodeGroups b = (encodeSymbols v).toList.map BitVec.toNat := by
  have hBytes : v.toList.map BitVec.toNat = (List.range 16).map b := by
    apply List.ext_getElem (by simp)
    intro j hj _
    simpa using h j (by simpa using hj)
  refine digitsValue_inj (encodeGroups_lt hb) toNat_lt_base (by simp [encodeGroups]) ?_
  rw [digitsValue_encodeGroups hb, digitsValue_encodeSymbols, bigEndian, hBytes]

theorem encTable_getD (v : Symbol) : encTable.toList.getD v.toNat 0x00#8 = encChar v := by
  rw [List.getD_eq_getElem _ _ (by simpa using v.isLt), Vector.getElem_toList, encChar]

/-- The text of R162's rows is the encoded text. -/
theorem encodedText_eq_padBuf (s : State) : encodedText s.inBuf = padBuf (encode26 (operand16 s)).toList := by
  have hBytes : ∀ j (hj : j < 16), (operand16 s)[j].toNat = (s.inBuf.toList.getD j 0x00#8).toNat := by
    intro j hj
    rw [operand16, firstBytes_byte 16 (by decide) s.inBuf ⟨j, hj⟩, List.getD_eq_getElem _ _ (by simp; omega),
      Vector.getElem_toList]
  apply Vector.ext
  intro k hk
  rw [padBuf_byte _ ⟨k, hk⟩, encodedText, Vector.getElem_ofFn,
    encodeGroups_eq_encodeSymbols hBytes fun _ => BitVec.isLt _]
  have hChar : (encode26 (operand16 s))[k] = encChar (encodeSymbols (operand16 s))[k] := encode26_getElem _ ⟨k, hk⟩
  simp [hChar, ← encTable_getD, hk]

/-- A byte result of `n` bytes is a VALUE with OUT_LEN `n` and OUT_INT 0, and nothing else changes (R103). -/
theorem exec_of_typedOutcome_eq_valueBytes {i : Instr} {s : State} {n : Nat} {b : Vector Byte n}
    (hKind : i.kind = bodyKind i) (ho : typedOutcome i s = .valueBytes b.toList) :
    exec i s = .next (withOutputs s (padBuf b.toList) (BitVec.ofNat 8 n) 0#64 0x01#8) := by
  rw [exec_of_typedOutcome_eq _ hKind ho]
  simp only [commit, commitBytes, Vector.length_toList]
  rfl

theorem padBuf_toList (b : Vector Byte 26) : padBuf b.toList = b := by
  apply Vector.ext
  intro i hi
  rw [padBuf_byte _ ⟨i, hi⟩, List.getD_eq_getElem _ _ (by simpa using hi), Vector.getElem_toList]

/-- ENCODE.blob of length 16 (R163). -/
theorem exec_encode_of_inLen {s : State} (hLen : s.inLen = 16#32) :
    exec (.encode .blob) s = .next (withOutputs s (padBuf (encode26 (operand16 s)).toList) 26#8 0#64 0x01#8) :=
  exec_of_typedOutcome_eq_valueBytes rfl (checkLength_right _ hLen)

/-- Settles O36: with IN_LEN 16 ENCODE.blob commits the encoded text, whose groups are R162's rows; a wrong length, the
null operand and the other kinds end in the checks before it. -/
theorem encodeWritesTheText : Obligations.EncodeWritesTheText := by
  intro s
  refine ⟨fun hLen => ?value, fun hLen => ?wrongLength, exec_of_kind_eq_null rfl, ?wrongKind⟩
  case value =>
    rw [encodedText_eq_padBuf]
    exact exec_encode_of_inLen hLen
  case wrongLength => exact exec_of_length_wrong rfl rfl hLen
  case wrongKind =>
    rintro k (rfl | rfl | rfl) <;> exact exec_of_kind_wrong (by decide) (by decide)

/-! ### DECODE: two symbols of one byte, and three blocks (R186) -/

theorem decodeBytes_first_eq (x : Nat) {y : Nat} (h : y < 32) : ((x &&& 0x07) <<< 5) ||| y = x % 8 * 32 + y := by
  rw [show x &&& 0x07 = x % 8 from Nat.and_two_pow_sub_one_eq_mod x 3, shiftLeft_or _ (by omega),
    show 2 ^ 5 = 32 from rfl]

/-- The last 15 bytes, of the last 24 symbols. -/
def byteBlocks (v : Nat → Nat) : List Nat :=
  byteRows (v 2) (v 3) (v 4) (v 5) (v 6) (v 7) (v 8) (v 9) ++
    byteRows (v 10) (v 11) (v 12) (v 13) (v 14) (v 15) (v 16) (v 17) ++
    byteRows (v 18) (v 19) (v 20) (v 21) (v 22) (v 23) (v 24) (v 25)

theorem decodeBytes_eq_cons (v : Nat → Nat) : decodeBytes v = ((v 0 &&& 0x07) <<< 5 ||| v 1) :: byteBlocks v := rfl

section Decode

variable {v : Nat → Nat} (hv : ∀ k, v k < 32)
include hv

theorem byteBlocks_lt : ∀ d ∈ byteBlocks v, d < 256 := by
  simp only [byteBlocks, List.forall_mem_append]
  exact ⟨⟨byteRows_lt (hv 2) (hv 3) (hv 4) (hv 5) (hv 6) (hv 7) (hv 8) (hv 9),
    byteRows_lt (hv 10) (hv 11) (hv 12) (hv 13) (hv 14) (hv 15) (hv 16) (hv 17)⟩,
    byteRows_lt (hv 18) (hv 19) (hv 20) (hv 21) (hv 22) (hv 23) (hv 24) (hv 25)⟩

theorem digitsValue_byteBlocks :
    digitsValue 256 (byteBlocks v) = digitsValue 32 ((List.range 24).map fun k => v (k + 2)) := by
  have hSymbols : (List.range 24).map (fun k => v (k + 2)) = [v 2, v 3, v 4, v 5, v 6, v 7, v 8, v 9] ++
    [v 10, v 11, v 12, v 13, v 14, v 15, v 16, v 17] ++ [v 18, v 19, v 20, v 21, v 22, v 23, v 24, v 25] := rfl
  have hLength : ∀ x₀ x₁ x₂ x₃ x₄ x₅ x₆ x₇ : Nat, (byteRows x₀ x₁ x₂ x₃ x₄ x₅ x₆ x₇).length = 5 :=
    fun _ _ _ _ _ _ _ _ => rfl
  rw [hSymbols, byteBlocks]
  simp only [digitsValue_append, hLength,
    digitsValue_byteRows (hv _) (hv _) (hv _) (hv _) (hv _) (hv _) (hv _), List.length_cons, List.length_nil]
  rfl

theorem decodeBytes_lt : ∀ d ∈ decodeBytes v, d < 256 := by
  have := hv 1
  rw [decodeBytes_eq_cons, decodeBytes_first_eq _ (hv 1), List.forall_mem_cons]
  exact ⟨by omega, byteBlocks_lt hv⟩

/-- The rows of R186 have the low 128 bits of the 26 symbols' value. -/
theorem digitsValue_decodeBytes :
    digitsValue 256 (decodeBytes v) = digitsValue 32 ((List.range 26).map v) % 2 ^ 128 := by
  have hSymbols : (List.range 26).map v = [v 0, v 1] ++ (List.range 24).map fun k => v (k + 2) := rfl
  have hFirst : digitsValue 32 [v 0, v 1] = v 0 * 32 + v 1 := by simp [digitsValue]
  have hTail : digitsValue 256 (byteBlocks v) < 256 ^ 15 := digitsValue_lt (byteBlocks_lt hv)
  have hLength : (byteBlocks v).length = 15 := rfl
  have := hv 1
  rw [hSymbols, digitsValue_append, hFirst, ← digitsValue_byteBlocks hv, decodeBytes_eq_cons,
    decodeBytes_first_eq _ (hv 1), digitsValue_cons, hLength, List.length_map, List.length_range]
  omega

end Decode

/-- The rows of R186 are the bytes of the stream (R181). -/
theorem decodeBytes_eq_streamBytes {v : Nat → Nat} {u : Vector Symbol 26}
    (h : ∀ k (hk : k < 26), u[k].toNat = v k) (hv : ∀ k, v k < 32) :
    decodeBytes v = (streamBytes (decodeStream u)).toList.map BitVec.toNat := by
  have hSymbols : u.toList.map BitVec.toNat = (List.range 26).map v := by
    apply List.ext_getElem (by simp)
    intro k hk _
    simpa using h k (by simpa using hk)
  have hBytes : digitsValue 256 ((streamBytes (decodeStream u)).toList.map BitVec.toNat) =
      (decodeStream u).toNat % 2 ^ 128 := by
    rw [show 2 ^ 128 = 256 ^ 16 from rfl, ← digitsValue_digits]
    refine congrArg (digitsValue 256) (List.ext_getElem (by simp) fun j hj _ => ?_)
    simpa using streamBytes_byte (decodeStream u) ⟨j, by simpa using hj⟩
  refine digitsValue_inj (decodeBytes_lt hv) toNat_lt_base (by simp [decodeBytes]) ?_
  rw [digitsValue_decodeBytes hv, hBytes, decodeStream_toNat, hSymbols]

/-- A byte result, by the numbers of its bytes. -/
theorem padBuf_eq_bufOf (bytes : List Byte) : padBuf bytes = bufOf (bytes.map BitVec.toNat) := by
  rw [← padBuf_map_ofNat, List.map_map]
  simp [Function.comp_def]

theorem decodeBody_of_decode26_eq_some {s : State} {b : Vector Byte 16} (h : decode26 s.params s.inBuf = some b) :
    decodeBody s = .valueBytes b.toList := by
  rcases decodeBody_cases s with ⟨-, hDecode⟩ | ⟨b', hBody, hDecode⟩
  · rw [h] at hDecode
    cases hDecode
  · rw [h] at hDecode
    rw [hBody, Option.some.inj hDecode]

/-- DECODE.text of length 26 on a text that decodes (R185). -/
theorem exec_decode_of_decode26_eq_some {s : State} {b : Vector Byte 16} (hLen : s.inLen = 26#32)
    (hDecode : decode26 s.params s.inBuf = some b) :
    exec (.decode .text) s = .next (withOutputs s (padBuf b.toList) 16#8 0#64 0x01#8) :=
  exec_of_typedOutcome_eq_valueBytes rfl ((checkLength_right _ hLen).trans (decodeBody_of_decode26_eq_some hDecode))

/-- Settles O37: on a valid text DECODE.text commits the bytes of the stream, which are R186's rows; a bad text, a
wrong length, the null operand and the other kinds end in the checks before it. -/
theorem decodeWritesTheBytes : Obligations.DecodeWritesTheBytes := by
  intro s
  refine ⟨fun v hLen hSymbols hFirst => ?value, fun hLen hFails => ?content, fun hLen => ?wrongLength,
    exec_of_kind_eq_null rfl, ?wrongKind⟩
  case value =>
    have hText : symbols s.params s.inBuf = some (Vector.ofFn v) :=
      (symbols_eq_some _ _ _).mpr fun k => by simp [hSymbols]
    have hDecode : decode26 s.params s.inBuf = some (streamBytes (decodeStream (Vector.ofFn v))) := by
      rw [decode26_eq_map_symbols (hSymbols 0) hFirst, hText, Option.map_some]
    rw [exec_decode_of_decode26_eq_some hLen hDecode, padBuf_eq_bufOf,
      decodeBytes_eq_streamBytes (u := Vector.ofFn v) (fun k hk => by simp [hk]) fun k => ?_]
    split
    · exact BitVec.isLt _
    · decide
  case content =>
    exact exec_of_outcomeOf_eq_error ((outcomeOf_eq_content_iff _ s).mpr ⟨rfl, hLen, hFails⟩)
  case wrongLength => exact exec_of_length_wrong rfl rfl hLen
  case wrongKind =>
    rintro k (rfl | rfl | rfl) <;> exact exec_of_kind_wrong (by decide) (by decide)

end Sys2Proof.Machine
end


section
/-!
PROOFS. The address map (20_memory.md R64, R65, R66): each address has one location, a read returns its byte, and a
store changes that byte only.
-/

namespace Sys2Proof.Machine

open Sys2Proof.Claims

/-! ### The ranges of the map, by their locations (R65) -/

/-- IN_LEN, IN_INT and IN_BUF: what the host may write. -/
def Location.isInput : Location → Bool
  | .inLen _ | .inInt _ | .inBuf _ => true
  | .cmd | .status | .outLen | .outInt _ | .outBuf _ | .reserved => false

/-- STATUS, OUT_LEN, OUT_INT and OUT_BUF: what a command may write. -/
def Location.isOutput : Location → Bool
  | .status | .outLen | .outInt _ | .outBuf _ => true
  | .cmd | .inLen _ | .inInt _ | .inBuf _ | .reserved => false

theorem ranges_eq_location (a : Addr) :
    writable a = (locate a).isInput ∧ readOnly a = (locate a).isOutput ∧
      reservedAddr a = decide (locate a = .reserved) := by
  unfold locate writable readOnly reservedAddr
  simp only
  split_ifs <;> simp [Location.isInput, Location.isOutput] <;> omega

theorem writable_eq_isInput (a : Addr) : writable a = (locate a).isInput := (ranges_eq_location a).1

theorem readOnly_eq_isOutput (a : Addr) : readOnly a = (locate a).isOutput := (ranges_eq_location a).2.1

theorem reservedAddr_iff (a : Addr) : reservedAddr a = true ↔ locate a = .reserved := by
  rw [(ranges_eq_location a).2.2, decide_eq_true_iff]

/-! ### Reads, and reads after a store -/

/-- The byte at a location. -/
def State.byteAt (s : State) : Location → Byte
  | .cmd => s.lastCmd
  | .status => s.status
  | .outLen => s.outLen
  | .inLen i => regByte s.inLen i.val
  | .inInt i => regByte s.inInt i.val
  | .outInt i => regByte s.outInt i.val
  | .inBuf i => s.inBuf[i.val]
  | .outBuf i => s.outBuf[i.val]
  | .reserved => 0x00#8

theorem memRead_eq_byteAt (s : State) (a : Addr) : memRead s a = s.byteAt (locate a) := by
  unfold memRead State.byteAt
  cases locate a <;> rfl

theorem memRead_inBuf (s : State) {a : Addr} (h : 0x20 ≤ a.toNat) (h' : a.toNat ≤ 0x39) :
    memRead s a = s.inBuf.toList.getD (a.toNat - 0x20) 0x00#8 := by
  rw [memRead_eq_byteAt, locate_inBuf h h', List.getD_eq_getElem _ _ (by simp; omega), Vector.getElem_toList]
  rfl

theorem memRead_outBuf (s : State) {a : Addr} (h : 0x40 ≤ a.toNat) (h' : a.toNat ≤ 0x59) :
    memRead s a = s.outBuf.toList.getD (a.toNat - 0x40) 0x00#8 := by
  rw [memRead_eq_byteAt, locate_outBuf h h', List.getD_eq_getElem _ _ (by simp; omega), Vector.getElem_toList]
  rfl

/-- A store outside the input registers is ignored (R65). -/
theorem storeByte_of_not_writable {a : Addr} (v : Byte) (s : State) (h : writable a = false) : storeByte a v s = s := by
  rw [writable_eq_isInput] at h
  unfold storeByte
  cases hLoc : locate a with
  | inLen i | inInt i | inBuf i => simp [hLoc, Location.isInput] at h
  | cmd | status | outLen | outInt i | outBuf i | reserved => rfl

/-- A store at an input location changes the byte at that location only (R66, R67). -/
theorem byteAt_storeByte {a : Addr} (v : Byte) (s : State) (h : (locate a).isInput = true) (l : Location) :
    (storeByte a v s).byteAt l = if l = locate a then v else s.byteAt l := by
  unfold storeByte
  cases hLoc : locate a with
  | inLen i =>
    cases l with
    | inLen j => simp [State.byteAt, regByte_setRegByte s.inLen i.val j.val v (by omega) (by omega), Fin.ext_iff]
    | _ => simp [State.byteAt]
  | inInt i =>
    cases l with
    | inInt j => simp [State.byteAt, regByte_setRegByte s.inInt i.val j.val v (by omega) (by omega), Fin.ext_iff]
    | _ => simp [State.byteAt]
  | inBuf i =>
    cases l with
    | inBuf j => simp [State.byteAt, Vector.getElem_set, Fin.ext_iff, eq_comm]
    | _ => simp [State.byteAt]
  | cmd | status | outLen | outInt i | outBuf i | reserved => simp [hLoc, Location.isInput] at h

/-- A read after a store (R65, R66): an input location is at one address only, so no other address reads the byte. -/
theorem memRead_storeByte (s : State) (a b : Addr) (v : Byte) :
    memRead (storeByte a v s) b = if b = a ∧ writable a = true then v else memRead s b := by
  by_cases h : writable a = true
  · have hInput : (locate a).isInput = true := by rwa [← writable_eq_isInput]
    have hMapped : locate a ≠ .reserved := fun hRes => by simp [hRes, Location.isInput] at hInput
    have hSame : locate b = locate a ↔ b = a := ⟨fun hl => (locate_inj hl.symm hMapped).symm, congrArg locate⟩
    simp only [memRead_eq_byteAt, byteAt_storeByte v s hInput, hSame, h, and_true]
  · rw [storeByte_of_not_writable v s (Bool.eq_false_iff.mpr h), if_neg fun hb => h hb.2]

/-- Settles O7: outside 0x00 the step of a write is a store, and a store changes one byte of the inputs. -/
theorem hostWriteStoresOneByteOnly : Obligations.HostWriteStoresOneByteOnly := by
  intro s a v rest hp ha
  exact ⟨_, step_store hp ha, fun b => memRead_storeByte { s with pending := rest } a b v,
    storeByte_params _ _ _, storeByte_replies _ _ _, storeByte_pending _ _ _⟩

/-- No read-only or reserved address is writable (R65). -/
theorem writable_of_readOnly_or_reserved {a : Addr} (h : readOnly a = true ∨ reservedAddr a = true) :
    writable a = false := by
  rw [readOnly_eq_isOutput, reservedAddr_iff] at h
  rw [writable_eq_isInput]
  cases hLoc : locate a with
  | inLen i | inInt i | inBuf i => simp [hLoc, Location.isOutput] at h
  | cmd | status | outLen | outInt i | outBuf i | reserved => rfl

/-- Settles O4: each range reads the byte of its location, and a store at a read-only or reserved address is ignored. -/
theorem registerMapReadsAndIgnoredWrites : Obligations.RegisterMapReadsAndIgnoredWrites := by
  refine ⟨fun s a => ⟨fun h => ?cmd, fun h => ?status, fun h => ?outLen, fun h h' => ?inLen, fun h h' => ?inInt,
    fun h h' => ?outInt, memRead_inBuf s, memRead_outBuf s, fun h => ?reserved⟩, fun s a v rest hp h => ?ignored⟩
  case cmd => simp [memRead, locate, h]
  case status => simp [memRead, locate, h]
  case outLen => simp [memRead, locate, h]
  case inLen =>
    rw [memRead_inLen s h h', regByte_toNat, show 32 - 8 - 8 * (a.toNat - 0x04) = 8 * (0x07 - a.toNat) by omega]
  case inInt =>
    rw [memRead_inInt s h h', regByte_toNat, show 64 - 8 - 8 * (a.toNat - 0x08) = 8 * (0x0F - a.toNat) by omega]
  case outInt =>
    rw [memRead_outInt s h h', regByte_toNat, show 64 - 8 - 8 * (a.toNat - 0x10) = 8 * (0x17 - a.toNat) by omega]
  case reserved => rw [memRead_eq_byteAt, (reservedAddr_iff a).mp h, State.byteAt]
  case ignored =>
    have ha : a ≠ 0x00#8 := fun ha => by subst ha; revert h; decide
    rw [step_store hp ha, storeByte_of_not_writable v _ (writable_of_readOnly_or_reserved h)]

/-- Settles O6: the index of a buffer byte is its address less the base. -/
theorem buffersAreInIndexOrder : Obligations.BuffersAreInIndexOrder := by
  intro s i
  have hAddr (base : Nat) (hBase : base ≤ 0x40) : (BitVec.ofNat 8 (base + i.val)).toNat = base + i.val :=
    Nat.mod_eq_of_lt (by omega)
  have hIn := hAddr 0x20 (by decide)
  have hOut := hAddr 0x40 (by decide)
  constructor
  · rw [memRead_inBuf s (by omega) (by omega), hIn, Nat.add_sub_cancel_left]
    simp
  · rw [memRead_outBuf s (by omega) (by omega), hOut, Nat.add_sub_cancel_left]
    simp

/-- Settles O8: a read appends its reply, and no location's byte depends on the replies or the pending events. -/
theorem hostReadChangesNoRegister : Obligations.HostReadChangesNoRegister := by
  intro s a rest hp
  have hStep : step s = .next { s with pending := rest, replies := s.replies ++ [memRead s a] } := step_read hp
  refine ⟨hStep, fun t ht b => ?_⟩
  cases hStep.symm.trans ht
  rfl

/-! ### The frame of a command (R103, R104) -/

theorem byteAt_commit (o : CommandOutcome) (s : State) {l : Location} (h : l.isOutput = false) :
    (commit o s).byteAt l = s.byteAt l := by
  cases l with
  | status | outLen | outInt i | outBuf i => simp [Location.isOutput] at h
  | cmd | inLen i | inInt i | inBuf i | reserved => simp [State.byteAt]

/-- Settles O27: a command commits, and a commit keeps every location but the outputs. -/
theorem commandFrame : Obligations.CommandFrame := by
  intro i s t h
  rw [eq_commit_of_exec h]
  refine ⟨fun a ha => ?_, commit_lastCmd _ _, commit_inLen _ _, commit_inInt _ _, commit_inBuf _ _,
    commit_params _ _, commit_pending _ _, commit_replies _ _⟩
  rw [readOnly_eq_isOutput] at ha
  rw [memRead_eq_byteAt, memRead_eq_byteAt, byteAt_commit _ _ ha]

end Sys2Proof.Machine
end


section
/-!
PROOFS. The command bytes (30_encoding.md R80 to R84) and the steps they make (40_command_execution.md R100): the
decoder inverts the encoder, and a write to 0x00 runs the decoded command.
-/

namespace Sys2Proof.Machine

open Sys2Proof.Claims

/-! ### Decoder and encoder (R80, R84) -/

theorem decode_encode (i : Instr) : decode (encode i) = .ok i := by
  cases i with
  | pack k | unpack k | encode k | decode k | extract k => cases k <;> rfl

/-- A byte is its three fields side by side (R80). -/
theorem eq_append_fields (c : Byte) : c = rsvField c ++ kindField c ++ opField c := by
  revert c
  decide

theorem eq_encode_of_decode {i : Instr} {c : Byte} (h : decode c = .ok i) : c = encode i := by
  rcases decode_cases c with ⟨j, hDecode, hLegal, hOp, hKind⟩ | ⟨e, hDecode, -⟩
  · obtain rfl : j = i := Except.ok.inj (hDecode.symm.trans h)
    obtain ⟨hRsv, -⟩ := (legalByte_eq_true_iff c).mp hLegal
    have hZero : rsvField c = 0#1 := (BitVec.eq_zero_or_eq_one _).resolve_right hRsv
    rw [eq_append_fields c, hZero, ← hKind, ← hOp, encode]
  · cases hDecode.symm.trans h

/-- Settles O12: the fields of a byte that decodes are the codes of its command, and the codes decode to it. -/
theorem decodeInvertsEncode : Obligations.DecodeInvertsEncode := by
  intro i c _
  exact ⟨eq_encode_of_decode, fun h => h ▸ decode_encode i⟩

/-- Settles O11: the bits of each byte are the codes of its command, or break a rule of R84. -/
theorem commandBytesDecodeAsWritten : Obligations.CommandBytesDecodeAsWritten :=
  ⟨rfl, rfl, rfl, rfl, rfl, rfl, rfl, rfl, rfl, rfl⟩

theorem exists_decode_eq_ok_iff (c : Byte) : (∃ i, decode c = .ok i) ↔ legalByte c = true := by
  rcases decode_cases c with ⟨i, hDecode, hLegal, -⟩ | ⟨e, hDecode, hIllegal⟩
  · simp [hDecode, hLegal]
  · simp [hDecode, hIllegal]

/-- Settles O13: the decoder accepts the legal bytes, which are counted, and an illegal byte commits ILLEGAL_COMMAND. -/
theorem exactlyTwentyFiveBytesAreLegal : Obligations.ExactlyTwentyFiveBytesAreLegal :=
  ⟨exists_decode_eq_ok_iff, rfl, rfl, fun s c rest hp hIllegal =>
    ⟨_, illegalByteRaisesIllegalCommand s c rest hp hIllegal, rfl⟩⟩

/-! ### The step of a command byte (R100) -/

theorem step_of_decode_eq_ok {s : State} {c : Byte} {rest : List HostEvent} {i : Instr}
    (hp : s.pending = .wr 0x00#8 c :: rest) (h : decode c = .ok i) : step s = exec i (taking s c rest) := by
  rw [step_command_taking hp, commandOutcome_of_decode_eq_ok _ h, exec_eq_commit,
    outcomeOf_congr i (s := taking s c rest) (u := s) rfl rfl rfl rfl]

/-- Settles O16: a legal byte runs its command; every byte commits an outcome, which leaves LAST_CMD. -/
theorem stepRunsTheDecodedCommand : Obligations.StepRunsTheDecodedCommand := by
  intro s c rest hp
  have hLast : (commit (commandOutcome c s) (taking s c rest)).lastCmd = c := commit_lastCmd _ _
  exact ⟨fun i => step_of_decode_eq_ok hp, _, step_command_taking hp, hLast, hLast⟩

theorem decode_of_decodeTableWord {w : Nat} {i : Instr} (h : decodeTableWord 8 w = some i) :
    decode (BitVec.ofNat 8 w) = .ok i := by
  unfold decodeTableWord at h
  split at h
  · cases hDecode : decode (BitVec.ofNat 8 w) with
    | ok j => rw [hDecode] at h; rw [Option.some.inj h]
    | error e => rw [hDecode] at h; cases h
  · cases h

/-- Settles O17: the placed byte is the next event, and it decodes to the command of the word. -/
theorem placedCommandIsTheNextStep : Obligations.PlacedCommandIsTheNextStep := fun s w _ h =>
  step_of_decode_eq_ok (placeCommand_pending s w) (decode_of_decodeTableWord h)

/-- Settles O9: the second write has the outcome of the first, since no commit writes an input, and a commit depends on
its outcome alone. -/
theorem repeatedCommandIsIdempotent : Obligations.RepeatedCommandIsIdempotent := by
  intro s c rest
  have hOutcome (u : State) (hl : u.inLen = s.inLen) (hi : u.inInt = s.inInt) (hb : u.inBuf = s.inBuf)
      (hp : u.params = s.params) : commandOutcome c u = commandOutcome c s := commandOutcome_congr c hl hi hb hp
  have hStep (es : List HostEvent) : step { s with pending := .wr 0x00#8 c :: es } =
      .next (commit (commandOutcome c s) (taking s c es)) := by
    rw [step_command_taking rfl, hOutcome { s with pending := .wr 0x00#8 c :: es } rfl rfl rfl rfl]
  have hAgain : step (commit (commandOutcome c s) (taking s c (.wr 0x00#8 c :: rest))) =
      .next (commit (commandOutcome c s) (taking s c rest)) := by
    rw [step_command_taking (commit_pending _ _), hOutcome _ (by simp) (by simp) (by simp) (by simp)]
    cases commandOutcome c s <;> rfl
  rw [run_succ 1 (hStep _), run_succ 0 hAgain, run_succ 0 (hStep rest)]

/-! ### What a step can do (R7, R9, R65, R240) -/

/-- Settles O18: an event is a read, a store, a command or a reset, and each answers a next state. -/
theorem everyStepAnswersANextState : Obligations.EveryStepAnswersANextState := by
  intro s
  cases hp : s.pending with
  | nil => exact ⟨s, by simp [step, takeEvent, hp]⟩
  | cons e rest =>
    cases e with
    | rd a => exact ⟨_, step_read hp⟩
    | wr a v =>
      by_cases ha : a = 0x00#8
      · exact ⟨_, step_command (ha ▸ hp)⟩
      · exact ⟨_, step_store hp ha⟩
    | reset => exact ⟨_, step_reset hp⟩

/-- Settles O10: with no event to take the state is answered as it is. -/
theorem noEventNoChange : Obligations.NoEventNoChange := by
  intro s hp
  simp only [step, takeEvent, hp]

/-- Settles O1: the step of the reset input, register by register. -/
theorem resetEventSetsEveryRegister : Obligations.ResetEventSetsEveryRegister := fun _ _ hp => step_reset hp

/-- Settles O32: none of the things a step can do writes the parameters. -/
theorem parametersNeverChange : Obligations.ParametersNeverChange := by
  intro s t h
  rcases step_cases h with ⟨-, rfl⟩ | ⟨a, rest, -, rfl⟩ | ⟨a, v, rest, -, -, rfl⟩ | ⟨c, rest, -, rfl⟩ | ⟨rest, -, rfl⟩
  · rfl
  · rfl
  · exact storeByte_params _ _ _
  · exact commit_params _ _
  · rfl

/-- Settles O2: every register of the reset state is zero, so every location reads zero. -/
theorem powerOnStateReadsAllZero : Obligations.PowerOnStateReadsAllZero := by
  refine ⟨fun a => ?_, rfl, rfl, rfl, rfl⟩
  rw [memRead_eq_byteAt]
  cases locate a with
  | cmd | status | outLen | reserved => rfl
  | inLen i | inInt i | outInt i => simp [State.byteAt, State.reset, regByte]
  | inBuf i | outBuf i => simp [State.byteAt, State.reset, zeroBuf]

/-- Settles O3: at reset IN_LEN is 0, no required length, and IN_INT is 0, whose six bytes are zero. -/
theorem firstCommandSeesResetInputs : Obligations.FirstCommandSeesResetInputs := by
  have hZero : bufOf (packQuotients (0#64).toNat) = clearBuf := by decide
  refine ⟨?extract, ?encode, ?pack⟩
  case extract =>
    rw [placedCommandIsTheNextStep State.reset 0x45 (.extract .blob) (by decide)]
    exact exec_of_length_wrong rfl rfl (by decide)
  case encode =>
    rw [placedCommandIsTheNextStep State.reset 0x43 (.encode .blob) (by decide)]
    exact exec_of_length_wrong rfl rfl (by decide)
  case pack =>
    obtain ⟨hPack, -⟩ := packWritesTheTimestampBytes { State.reset with lastCmd := 0x11#8 }
    rw [placedCommandIsTheNextStep State.reset 0x11 (.pack .integer) (by decide)]
    exact hPack.trans (congrArg (fun buf => Host.Outcome.next (withOutputs _ buf 6#8 0#64 0x01#8)) hZero)

end Sys2Proof.Machine
end

section
/-!
PROOFS. The tables (41_alphabet_tables.md): DEC_TABLE row by row (R123), and its inversion of ENC_TABLE (R128).
-/

namespace Sys2Proof.Machine

open Sys2Proof.Claims

/-- Numbers in rows of 16. -/
theorem range_mul_sixteen (n : Nat) :
    List.range (n * 16) = (List.range n).flatMap fun hi => (List.range 16).map fun lo => hi * 16 + lo := by
  induction n with
  | zero => rfl
  | succ n ih =>
    rw [Nat.succ_mul, List.range_add, ih, List.range_succ (n := n), List.flatMap_append, List.flatMap_cons,
      List.flatMap_nil, List.append_nil]

/-- One row of DEC_TABLE, for both values of either parameter. -/
theorem decTable_row : ∀ foldO strict : Bool, ∀ hi ∈ List.range 16,
    ((List.range 16).map fun lo =>
      (decTable { pFoldO := foldO, pStrictFirst := strict } (BitVec.ofNat 8 (hi * 16 + lo))).map BitVec.toNat) =
        decTableRow (if foldO then some 0 else none) hi := by
  decide

theorem decTable_eq_rows (foldO strict : Bool) :
    ((List.range 256).map fun n => (decTable { pFoldO := foldO, pStrictFirst := strict } (BitVec.ofNat 8 n)).map
      BitVec.toNat) = (List.range 16).flatMap (decTableRow (if foldO then some 0 else none)) := by
  rw [show 256 = 16 * 16 from rfl, range_mul_sixteen, List.map_flatMap]
  refine List.flatMap_congr fun hi hMem => ?_
  rw [List.map_map]
  exact decTable_row foldO strict hi hMem

/-- Settles O38: the table is its 16 rows, and the valid entries are counted in them. -/
theorem decodeTableIsTheTableOfTheSpec : Obligations.DecodeTableIsTheTableOfTheSpec := by
  refine ⟨fun strict => ⟨decTable_eq_rows false strict, decTable_eq_rows true strict⟩, ?_⟩
  have hCount := congrArg (List.countP Option.isSome) (decTable_eq_rows false false)
  rw [List.countP_map, List.countP_flatMap] at hCount
  rw [← List.countP_eq_length_filter]
  refine Eq.trans (List.countP_congr fun n _ => ?_) (hCount.trans (by decide))
  simp [Config.Params.default]

/-- Settles O39: the characters are those of the string, increasing, and DEC_TABLE finds each in both cases. -/
theorem alphabetTablesAreInverse : Obligations.AlphabetTablesAreInverse :=
  ⟨by decide, fun p v => ⟨decTable_encChar p v, decTable_encChar_lower p v⟩, encChar_strictMono⟩

end Sys2Proof.Machine
end


section
/-!
PROOFS. The invariant of the block (10_state.md R23, R26, R29, R31; 60_exceptions.md R210 to R215): no event but a
command and a reset touches what it speaks of, and each outcome a command byte can end in meets it.
-/

namespace Sys2Proof.Machine

open Sys2Proof.Claims Sys2Proof.Safety

/-- Settles O30: a read and a store write none of these registers. -/
theorem resultStaysUntilCommandOrReset : Obligations.ResultStaysUntilCommandOrReset := by
  intro s t e rest hp hNoCommand hNoReset hStep
  cases e with
  | rd a =>
    cases hStep.symm.trans (step_read hp)
    exact ⟨rfl, rfl, rfl, rfl, rfl⟩
  | wr a v =>
    have ha : a ≠ 0x00#8 := fun h => by simp [h] at hNoCommand
    cases hStep.symm.trans (step_store hp ha)
    exact ⟨storeByte_status _ _ _, storeByte_lastCmd _ _ _, storeByte_outLen _ _ _, storeByte_outInt _ _ _,
      storeByte_outBuf _ _ _⟩
  | reset => exact absurd rfl hNoReset

/-- The invariant speaks of STATUS, LAST_CMD and the outputs only. -/
theorem blockInv_congr {s t : State} (hStatus : t.status = s.status) (hLast : t.lastCmd = s.lastCmd)
    (hLen : t.outLen = s.outLen) (hInt : t.outInt = s.outInt) (hBuf : t.outBuf = s.outBuf) (h : BlockInv s) :
    BlockInv t := by
  cases s
  cases t
  subst hStatus hLast hLen hInt hBuf
  obtain ⟨hStatus, hLen, hPadded, hNarrow, hOne, hTells, hText⟩ := h
  exact ⟨hStatus, hLen, hPadded, hNarrow, hOne, hTells, hText⟩

/-- The STATUS of each outcome without a value, after the bytes that can give it (R210, R212, R214, R215). -/
inductive StatusFits (c : Byte) : Byte → Prop where
  | illegalCommand (hIllegal : legalByte c = false) : StatusFits c 0x17#8
  | null (hLegal : legalByte c = true) (hKind : kindField c = 0#3) : StatusFits c 0x02#8
  | type (hLegal : legalByte c = true) (hKind : kindField c ≠ 0#3) : StatusFits c 0x07#8
  | content (hDecode : c = 0x34#8) : StatusFits c 0x0F#8
  | length (hLength : c = 0x42#8 ∨ c = 0x43#8 ∨ c = 0x34#8 ∨ c = 0x45#8) : StatusFits c 0x0B#8

/-- The five commands of the expected kind are legal bytes whose KIND is not NULL. -/
theorem legalByte_of_typed : ∀ c ∈ [0x11#8, 0x34#8, 0x43#8, 0x42#8, 0x45#8], legalByte c = true ∧ kindField c ≠ 0#3 := by
  decide

theorem clearBuf_getElem (i : Fin 26) : clearBuf[i.val] = 0x00#8 := by
  simp [clearBuf]

theorem blockInv_cleared {s : State} {status : Byte} (h : StatusFits s.lastCmd status) :
    BlockInv (cleared s status) where
  statusLegal := by cases h <;> simp [StatusLegal]
  outLenLegal := .inl rfl
  outBufPadded := fun i _ => clearBuf_getElem i
  outIntNarrow := by simp
  oneResult := ⟨fun _ => ⟨rfl, rfl⟩, fun _ => rfl⟩
  statusTellsLastCommand := by
    cases h with
    | illegalCommand hIllegal => simp [StatusTellsLastCommand, hIllegal]
    | null hLegal hKind => simp [StatusTellsLastCommand, hLegal, hKind]
    | type hLegal hKind => simp [StatusTellsLastCommand, hLegal, hKind]
    | content hDecode => simp [StatusTellsLastCommand, hDecode, legalByte_of_typed]
    | length hLength =>
      rcases hLength with hc | hc | hc | hc <;> simp [StatusTellsLastCommand, hc, legalByte_of_typed]
  textCanonical := nofun

/-- The invariant holds after reset. -/
theorem blockInv_of_reset {s : State} (hStatus : s.status = 0x00#8) (hLast : s.lastCmd = 0x00#8)
    (hLen : s.outLen = 0x00#8) (hInt : s.outInt = 0#64) (hBuf : s.outBuf = clearBuf) : BlockInv s where
  statusLegal := .inl hStatus
  outLenLegal := .inl hLen
  outBufPadded := fun i _ => by rw [hBuf]; exact clearBuf_getElem i
  outIntNarrow := by simp [OutIntNarrow, hInt]
  oneResult := ⟨fun _ => ⟨hLen, hInt⟩, fun _ => hInt⟩
  statusTellsLastCommand := by simp [StatusTellsLastCommand, hStatus, hLast, hLen]
  textCanonical := fun h => by simp [hLen] at h

/-- Settles O52: every register the invariant speaks of is zero at reset. -/
theorem invariantHoldsAtReset : Obligations.InvariantHoldsAtReset :=
  blockInv_of_reset rfl rfl rfl rfl rfl

/-! ### The values -/

/-- OUT_LEN of each operation's value, by its byte (R26, R83). -/
def ValueFits (c outLen : Byte) : Prop :=
  (c = 0x11#8 ∧ outLen = 6#8) ∨ (c = 0x34#8 ∧ outLen = 16#8) ∨ (c = 0x43#8 ∧ outLen = 26#8) ∨
    (c = 0x42#8 ∧ outLen = 0#8) ∨ (c = 0x45#8 ∧ outLen = 0#8)

theorem blockInv_of_value {s : State} (hStatus : s.status = 0x01#8) (hFits : ValueFits s.lastCmd s.outLen)
    (hPadded : OutBufPadded s) (hNarrow : OutIntNarrow s) (hInt : s.outLen ≠ 0#8 → s.outInt = 0#64)
    (hText : TextCanonical s) : BlockInv s where
  statusLegal := .inr (.inl hStatus)
  outLenLegal := by
    rcases hFits with ⟨-, h⟩ | ⟨-, h⟩ | ⟨-, h⟩ | ⟨-, h⟩ | ⟨-, h⟩ <;> simp [OutLenLegal, h]
  outBufPadded := hPadded
  outIntNarrow := hNarrow
  oneResult := ⟨fun h => absurd hStatus h, hInt⟩
  statusTellsLastCommand := by
    rcases hFits with ⟨hc, hLen⟩ | ⟨hc, hLen⟩ | ⟨hc, hLen⟩ | ⟨hc, hLen⟩ | ⟨hc, hLen⟩ <;>
      simp [StatusTellsLastCommand, hStatus, hc, hLen, legalByte_of_typed]
  textCanonical := hText

theorem blockInv_commit_valueInt {s : State} {w : BitVec 64} (hWidth : w.toNat < 2 ^ 48)
    (hLast : s.lastCmd = 0x42#8 ∨ s.lastCmd = 0x45#8) : BlockInv (commit (.valueInt w) s) := by
  have hLen : (commit (.valueInt w) s).outLen = 0#8 := rfl
  have hFits : ValueFits s.lastCmd 0#8 := .inr (.inr (.inr (hLast.imp (⟨·, rfl⟩) (⟨·, rfl⟩))))
  exact blockInv_of_value rfl hFits (fun i _ => clearBuf_getElem i) hWidth (fun h => absurd hLen h)
    fun h => absurd (hLen.symm.trans h) (by decide)

theorem commit_valueBytes_outLen_toNat {bytes : List Byte} (hLen : bytes.length ≤ 26) (s : State) :
    (commit (.valueBytes bytes) s).outLen.toNat = bytes.length :=
  Nat.mod_eq_of_lt (by omega)

/-- A byte result is padded with zeros (R103). -/
theorem outBufPadded_commit_valueBytes {bytes : List Byte} (hLen : bytes.length ≤ 26) (s : State) :
    OutBufPadded (commit (.valueBytes bytes) s) := by
  intro i hi
  rw [commit_valueBytes_outLen_toNat hLen] at hi
  exact (padBuf_byte bytes i).trans (List.getD_eq_default _ _ hi)

/-- A byte result meets the invariant if it has its operation's length and, of 26 bytes, is a canonical text. -/
theorem blockInv_commit_valueBytes {s : State} {n : Nat} {b : Vector Byte n} (hn : n ≤ 26)
    (hFits : ValueFits s.lastCmd (BitVec.ofNat 8 n)) (hText : n = 26 → ∃ u, b.toList = (encode26 u).toList) :
    BlockInv (commit (.valueBytes b.toList) s) := by
  have hLen : (commit (.valueBytes b.toList) s).outLen = BitVec.ofNat 8 n :=
    congrArg (BitVec.ofNat 8) b.length_toList
  refine blockInv_of_value rfl (hLen ▸ hFits) (outBufPadded_commit_valueBytes (by simpa using hn) s) ?narrow
    (fun _ => rfl) fun h => ?text
  case narrow => exact Nat.two_pow_pos 48
  case text =>
    have hLength := commit_valueBytes_outLen_toNat (bytes := b.toList) (by simpa using hn) s
    rw [h, Vector.length_toList] at hLength
    obtain ⟨u, hu⟩ := hText hLength.symm
    have hBuf : (commit (.valueBytes b.toList) s).outBuf = encode26 u := by
      rw [hu]
      exact padBuf_toList _
    rw [hBuf]
    exact encodedTextIsCanonical u

/-! ### Every outcome of a command byte -/

theorem unpack48_lt (b : Vector Byte 6) : (unpack48 b).toNat < 2 ^ 48 := by
  rw [unpack48_toNat]
  simpa using bigEndian_lt b.toList

theorem kindCode_eq_zero_iff (k : Kind) : kindCode k = 0#3 ↔ k = .null := by
  cases k <;> decide

/-- The bytes of the well-typed commands that require a length (R83). -/
theorem encode_of_requiredLength {i : Instr} {n : Nat} (hKind : i.kind = expectedKind i)
    (hLen : requiredLength i = some n) :
    encode i = 0x42#8 ∨ encode i = 0x43#8 ∨ encode i = 0x34#8 ∨ encode i = 0x45#8 := by
  cases i with
  | pack k => cases hLen
  | unpack k => obtain rfl : k = .blob := hKind; exact .inl rfl
  | encode k => obtain rfl : k = .blob := hKind; exact .inr (.inl rfl)
  | decode k => obtain rfl : k = .text := hKind; exact .inr (.inr (.inl rfl))
  | extract k => obtain rfl : k = .blob := hKind; exact .inr (.inr (.inr rfl))

/-- What a well-typed command ends in meets the invariant, with its byte in LAST_CMD. -/
theorem blockInv_typedOutcome {i : Instr} {s u : State} (hKind : i.kind = expectedKind i)
    (hLast : u.lastCmd = encode i) : BlockInv (commit (typedOutcome i s) u) := by
  rcases typedOutcome_cases i s with h | ⟨h, k, rfl⟩ | ⟨b, h, k, rfl⟩ | ⟨b, h, k, rfl⟩ | ⟨b, h, k, rfl⟩ |
    ⟨b, h, ⟨k, rfl⟩ | ⟨k, rfl⟩⟩ <;> rw [h]
  · obtain ⟨n, hReq, -⟩ := (typedOutcome_eq_length_iff i s).mp h
    exact blockInv_cleared (.length (hLast ▸ encode_of_requiredLength hKind hReq))
  · obtain rfl : k = .text := hKind
    exact blockInv_cleared (.content hLast)
  · obtain rfl : k = .integer := hKind
    exact blockInv_commit_valueBytes (by decide) (.inl ⟨hLast, rfl⟩) nofun
  · obtain rfl : k = .blob := hKind
    exact blockInv_commit_valueBytes (by decide) (.inr (.inr (.inl ⟨hLast, rfl⟩))) fun _ => ⟨b, rfl⟩
  · obtain rfl : k = .text := hKind
    exact blockInv_commit_valueBytes (by decide) (.inr (.inl ⟨hLast, rfl⟩)) nofun
  · obtain rfl : k = .blob := hKind
    exact blockInv_commit_valueInt (unpack48_lt b) (.inl hLast)
  · obtain rfl : k = .blob := hKind
    exact blockInv_commit_valueInt (unpack48_lt b) (.inr hLast)

theorem blockInv_commandOutcome (c : Byte) {s u : State} (hLast : u.lastCmd = c) :
    BlockInv (commit (commandOutcome c s) u) := by
  rcases decode_cases c with ⟨i, hDecode, hLegal, -, hKind⟩ | ⟨e, -, hIllegal⟩
  · rw [commandOutcome_of_decode_eq_ok s hDecode, outcomeOf_eq_checks]
    split
    · next hNull =>
      have hField : kindField u.lastCmd = 0#3 := by rw [hLast, ← hKind, hNull]; rfl
      exact blockInv_cleared (.null (hLast ▸ hLegal) hField)
    · next hNull =>
      split
      · next hExpected => exact blockInv_typedOutcome hExpected (hLast.trans (eq_encode_of_decode hDecode))
      · have hField : kindField u.lastCmd ≠ 0#3 := by rwa [hLast, ← hKind, ne_eq, kindCode_eq_zero_iff]
        exact blockInv_cleared (.type (hLast ▸ hLegal) hField)
  · rw [commandOutcome_of_illegal s hIllegal]
    exact blockInv_cleared (.illegalCommand (hLast ▸ hIllegal))

/-- Settles O53: a read and a store leave what the invariant speaks of, a reset clears it, and every outcome of a
command byte meets it. -/
theorem everyStepKeepsTheInvariant : Obligations.EveryStepKeepsTheInvariant := by
  intro s t hInv hStep
  rcases step_cases hStep with ⟨-, rfl⟩ | ⟨a, rest, -, rfl⟩ | ⟨a, v, rest, -, -, rfl⟩ | ⟨c, rest, -, rfl⟩ |
    ⟨rest, -, rfl⟩
  · exact hInv
  · exact blockInv_congr (s := s) rfl rfl rfl rfl rfl hInv
  · exact blockInv_congr (s := s) (storeByte_status _ _ _) (storeByte_lastCmd _ _ _) (storeByte_outLen _ _ _)
      (storeByte_outInt _ _ _) (storeByte_outBuf _ _ _) hInv
  · exact blockInv_commandOutcome c rfl
  · exact blockInv_of_reset rfl rfl rfl rfl rfl

end Sys2Proof.Machine
end


section
/-!
PROOFS. Runs of host events (30_encoding.md R86; 70_reset_and_hazards.md R244, R245): what the expansion of each line
leaves, and a command after a presented operand.
-/

namespace Sys2Proof.Machine

open Sys2Proof.Claims

/-! ### Runs of reads and of stores -/

/-- A run of reads appends the bytes at their addresses and changes no register (R66). -/
theorem run_reads {s : State} {as : List Addr} {rest : List HostEvent}
    (hp : s.pending = as.map HostEvent.rd ++ rest) :
    Host.Core.run core as.length s =
      .next { s with pending := rest, replies := s.replies ++ as.map (memRead s) } := by
  induction as generalizing s with
  | nil =>
    obtain rfl : s.pending = rest := hp
    simp [Host.Core.run]
  | cons a as ih =>
    rw [List.length_cons, run_succ _ (step_read hp), ih rfl]
    exact congrArg (fun replies => Host.Outcome.next { s with pending := rest, replies := replies })
      (List.append_assoc s.replies [memRead s a] (as.map (memRead s)))

theorem storeByte_pending_comm (a : Addr) (v : Byte) (s : State) (es : List HostEvent) :
    storeByte a v { s with pending := es } = { storeByte a v s with pending := es } := by
  unfold storeByte
  cases locate a <;> rfl

/-- The writes of bytes to addresses. -/
def storeEvents (ws : List (Addr × Byte)) : List HostEvent := ws.map fun w => .wr w.1 w.2

/-- A run of stores outside 0x00, from what each store does: `g i` is the state after the first `i` of them. -/
theorem run_storeEvents {ws : List (Addr × Byte)} {g : Nat → State} {rest : List HostEvent}
    (hStore : ∀ i (hi : i < ws.length), ws[i].1 ≠ 0x00#8 ∧ storeByte ws[i].1 ws[i].2 (g i) = g (i + 1)) :
    Host.Core.run core ws.length { g 0 with pending := storeEvents ws ++ rest } =
      .next { g ws.length with pending := rest } := by
  induction ws generalizing g with
  | nil => rfl
  | cons w ws ih =>
    obtain ⟨hAddr, hFirst⟩ : w.1 ≠ 0x00#8 ∧ storeByte w.1 w.2 (g 0) = g 1 := hStore 0 (by simp)
    have hStep : step { g 0 with pending := storeEvents (w :: ws) ++ rest } =
        .next { g 1 with pending := storeEvents ws ++ rest } := by
      rw [step_store (rest := storeEvents ws ++ rest) rfl hAddr, ← hFirst]
      exact congrArg Host.Outcome.next (storeByte_pending_comm w.1 w.2 (g 0) _)
    rw [List.length_cons, run_succ _ hStep]
    exact ih (g := fun i => g (i + 1)) fun i hi => hStore (i + 1) (by simpa using hi)

/-- `run_storeEvents` from a state whose next events are the stores. -/
theorem run_stores {s : State} {ws : List (Addr × Byte)} {rest : List HostEvent} (g : Nat → State)
    (hp : s.pending = storeEvents ws ++ rest) (hStart : g 0 = s)
    (hStore : ∀ i (hi : i < ws.length), ws[i].1 ≠ 0x00#8 ∧ storeByte ws[i].1 ws[i].2 (g i) = g (i + 1)) :
    Host.Core.run core ws.length s = .next { g ws.length with pending := rest } := by
  have hRun := run_storeEvents (rest := rest) hStore
  rwa [hStart, ← hp] at hRun

/-! ### WRLEN and WRINT: a register written byte by byte (R62, R86) -/

/-- The register `old` with its first `k` bytes replaced by those of `new`. -/
def replaceBytes {w : Nat} (old new : BitVec w) : Nat → BitVec w
  | 0 => old
  | k + 1 => setRegByte (replaceBytes old new k) k (regByte new k)

theorem regByte_replaceBytes {w : Nat} (old new : BitVec w) {j k : Nat} (hk : 8 * k ≤ w) (hj : 8 * j + 8 ≤ w) :
    regByte (replaceBytes old new k) j = if j < k then regByte new j else regByte old j := by
  induction k with
  | zero => simp [replaceBytes]
  | succ k ih =>
    rw [replaceBytes, regByte_setRegByte _ _ _ _ (by omega) hj, ih (by omega)]
    rcases Nat.lt_trichotomy j k with h | rfl | h
    · rw [if_neg (by omega), if_pos h, if_pos (by omega)]
    · rw [if_pos rfl, if_pos (by omega)]
    · rw [if_neg (by omega), if_neg (by omega), if_neg (by omega)]

/-- All bytes replaced make the new register. -/
theorem replaceBytes_all {n : Nat} (old new : BitVec (8 * n)) : replaceBytes old new n = new :=
  eq_of_regByte_eq fun i hi => by rw [regByte_replaceBytes _ _ (Nat.le_refl _) (by omega), if_pos hi]

/-- The writes of the first `n` bytes of a register to the addresses from `base` on. -/
def registerWrites {w : Nat} (base n : Nat) (x : BitVec w) : List (Addr × Byte) :=
  (List.range n).map fun i => (BitVec.ofNat 8 (base + i), regByte x i)

theorem storeByte_inLen (s : State) (v : Byte) {i : Nat} (hi : i < 4) :
    storeByte (BitVec.ofNat 8 (0x04 + i)) v s = { s with inLen := setRegByte s.inLen i v } := by
  have ha : (BitVec.ofNat 8 (0x04 + i)).toNat = 0x04 + i := Nat.mod_eq_of_lt (by omega)
  unfold storeByte
  rw [locate_inLen (by omega) (by omega)]
  simp only [ha, Nat.add_sub_cancel_left]

theorem storeByte_inInt (s : State) (v : Byte) {i : Nat} (hi : i < 8) :
    storeByte (BitVec.ofNat 8 (0x08 + i)) v s = { s with inInt := setRegByte s.inInt i v } := by
  have ha : (BitVec.ofNat 8 (0x08 + i)).toNat = 0x08 + i := Nat.mod_eq_of_lt (by omega)
  unfold storeByte
  rw [locate_inInt (by omega) (by omega)]
  simp only [ha, Nat.add_sub_cancel_left]

theorem addr_ne_zero {n : Nat} (h : 0 < n) (h' : n < 256) : BitVec.ofNat 8 n ≠ 0x00#8 := by
  intro hZero
  have := congrArg BitVec.toNat hZero
  rw [BitVec.toNat_ofNat, Nat.mod_eq_of_lt h'] at this
  exact Nat.ne_of_gt h this

theorem run_wrLen {s : State} {n : BitVec 32} {rest : List HostEvent} (hp : s.pending = wrLenEvents n ++ rest) :
    Host.Core.run core 4 s = .next { s with inLen := n, pending := rest } := by
  have hRun := run_stores (ws := registerWrites 0x04 4 n) (fun i => { s with inLen := replaceBytes s.inLen n i }) hp rfl
    fun i (hi : i < 4) => by
      simp only [registerWrites, List.getElem_map, List.getElem_range]
      exact ⟨addr_ne_zero (by omega) (by omega), storeByte_inLen _ _ hi⟩
  exact hRun.trans (congrArg (fun r => Host.Outcome.next { s with inLen := r, pending := rest })
    (replaceBytes_all (n := 4) s.inLen n))

theorem run_wrInt {s : State} {x : BitVec 64} {rest : List HostEvent} (hp : s.pending = wrIntEvents x ++ rest) :
    Host.Core.run core 8 s = .next { s with inInt := x, pending := rest } := by
  have hRun := run_stores (ws := registerWrites 0x08 8 x) (fun i => { s with inInt := replaceBytes s.inInt x i }) hp rfl
    fun i (hi : i < 8) => by
      simp only [registerWrites, List.getElem_map, List.getElem_range]
      exact ⟨addr_ne_zero (by omega) (by omega), storeByte_inInt _ _ hi⟩
  exact hRun.trans (congrArg (fun r => Host.Outcome.next { s with inInt := r, pending := rest })
    (replaceBytes_all (n := 8) s.inInt x))

/-! ### WRBUF: the front of IN_BUF (R86) -/

/-- A buffer whose first bytes are replaced by the given ones. -/
def frontReplaced (bs : List Byte) (buf : Vector Byte 26) : Vector Byte 26 :=
  Vector.ofFn fun i => bs.getD i.val buf[i.val]

theorem frontReplaced_nil (buf : Vector Byte 26) : frontReplaced [] buf = buf := by
  apply Vector.ext
  intro i hi
  simp [frontReplaced]

theorem frontReplaced_take_succ (bs : List Byte) (buf : Vector Byte 26) {i : Nat} (hi : i < bs.length) (hi' : i < 26) :
    frontReplaced (bs.take (i + 1)) buf = (frontReplaced (bs.take i) buf).set i bs[i] := by
  apply Vector.ext
  intro k hk
  simp only [frontReplaced, Vector.getElem_ofFn, Vector.getElem_set, List.getD_eq_getElem?_getD, List.getElem?_take]
  rcases Nat.lt_trichotomy k i with h | rfl | h
  · rw [if_pos (by omega), if_pos h, if_neg (by omega)]
  · simp [hi]
  · rw [if_neg (by omega), if_neg (by omega), if_neg (by omega)]

/-- The writes of a byte sequence to the addresses from `base` on. -/
def bufferWrites (base : Nat) (bs : List Byte) : List (Addr × Byte) :=
  bs.mapIdx fun i b => (BitVec.ofNat 8 (base + i), b)

theorem wrBytesFrom_eq_storeEvents (base : Nat) (bs : List Byte) :
    wrBytesFrom base bs = storeEvents (bufferWrites base bs) := by
  induction bs generalizing base with
  | nil => rfl
  | cons b bs ih =>
    have hShift : (fun (i : Nat) (x : Byte) => (BitVec.ofNat 8 (base + 1 + i), x)) =
        fun i x => (BitVec.ofNat 8 (base + (i + 1)), x) := by
      funext i x
      rw [Nat.add_assoc, Nat.add_comm 1 i]
    rw [wrBytesFrom, ih, bufferWrites, bufferWrites, List.mapIdx_cons, hShift]
    rfl

theorem storeByte_inBuf (s : State) (v : Byte) {i : Nat} (hi : i < 26) :
    storeByte (BitVec.ofNat 8 (0x20 + i)) v s = { s with inBuf := s.inBuf.set i v } := by
  have ha : (BitVec.ofNat 8 (0x20 + i)).toNat = 0x20 + i := Nat.mod_eq_of_lt (by omega)
  unfold storeByte
  rw [locate_inBuf (by omega) (by omega)]
  simp only [ha, Nat.add_sub_cancel_left]

theorem run_wrBuf {s : State} {bs : List Byte} {rest : List HostEvent} (hLen : bs.length ≤ 26)
    (hp : s.pending = wrBufEvents bs ++ rest) :
    Host.Core.run core bs.length s = .next { s with inBuf := frontReplaced bs s.inBuf, pending := rest } := by
  rw [wrBufEvents, wrBytesFrom_eq_storeEvents] at hp
  have hLength : (bufferWrites 0x20 bs).length = bs.length := List.length_mapIdx
  have hRun := run_stores (fun i => { s with inBuf := frontReplaced (bs.take i) s.inBuf }) hp
    (by simp only [List.take_zero, frontReplaced_nil]) fun i hi => by
      have hi : i < bs.length := hLength ▸ hi
      simp only [bufferWrites, List.getElem_mapIdx]
      refine ⟨addr_ne_zero (by omega) (by omega), ?_⟩
      rw [storeByte_inBuf _ _ (by omega), frontReplaced_take_succ bs s.inBuf hi (by omega)]
  rwa [hLength, List.take_length] at hRun

theorem run_wrBuf_wrLen {s : State} {bs : List Byte} {n : BitVec 32} {rest : List HostEvent} (hLen : bs.length ≤ 26)
    (hp : s.pending = wrBufEvents bs ++ (wrLenEvents n ++ rest)) :
    Host.Core.run core (bs.length + 4) s =
      .next { s with inBuf := frontReplaced bs s.inBuf, inLen := n, pending := rest } := by
  rw [run_add _ _ (run_wrBuf hLen hp), run_wrLen rfl]

/-- Settles O14: WRLEN and WRINT replace every byte of their register, WRBUF and OPERAND the front of IN_BUF. -/
theorem writePseudoInstructionsSetTheirRegister : Obligations.WritePseudoInstructionsSetTheirRegister := by
  refine ⟨fun s n rest => run_wrLen, fun s x rest => run_wrInt, fun s bs rest => run_wrBuf, fun s bs rest hLen hp => ?_⟩
  exact run_wrBuf_wrLen hLen (by rw [← List.append_assoc]; exact hp.elim id id)

/-! ### RDINT, RDBUF and RDST (R67, R86) -/

/-- Settles O15: a run of reads over a register's addresses replies its bytes. -/
theorem readPseudoInstructionsReadTheirRegister : Obligations.ReadPseudoInstructionsReadTheirRegister := by
  refine ⟨fun s rest hp => ?rdInt, fun s n rest hn hp => ?rdBuf, fun s rest hp => run_reads (as := [0x01#8]) hp⟩
  case rdInt =>
    have hRun := run_reads (as := addressesFrom 0x10 8) hp
    have hBytes : (addressesFrom 0x10 8).map (memRead s) = (List.range 8).map (regByte s.outInt) :=
      map_memRead_addressesFrom (by decide) fun _ h h' => memRead_outInt s h (by omega)
    rw [hBytes] at hRun
    exact ⟨_, hRun, rfl, bigEndian_regByte (n := 8) s.outInt⟩
  case rdBuf =>
    have hEvents : rdBufEvents n = (addressesFrom 0x40 n).map HostEvent.rd := by
      rw [addressesFrom, List.map_map]
      rfl
    have hRun := run_reads (as := addressesFrom 0x40 n) (hp.trans (congrArg (· ++ rest) hEvents))
    have hBytes : (addressesFrom 0x40 n).map (memRead s) = (List.range n).map fun i => s.outBuf.toList.getD i 0x00#8 :=
      map_memRead_addressesFrom (by omega) fun _ h h' => memRead_outBuf s h (by omega)
    have hTake : (List.range n).map (fun i => s.outBuf.toList.getD i 0x00#8) = s.outBuf.toList.take n := by
      apply List.ext_getElem (by simpa using hn)
      intro i hi _
      have hi : i < 26 := by simp at hi; omega
      simp [hi]
    rwa [hBytes, hTake, show (addressesFrom 0x40 n).length = n by simp [addressesFrom]] at hRun

/-! ### A presented operand (R244, R245) -/

theorem statedLength_toNat (bs : List Byte) : (statedLength bs).toNat = min bs.length 0xFFFFFFFF :=
  Nat.mod_eq_of_lt (by omega)

theorem statedLength_eq_ite (bs : List Byte) :
    statedLength bs = if bs.length < 2 ^ 32 - 1 then BitVec.ofNat 32 bs.length else 0xFFFFFFFF#32 := by
  unfold statedLength
  split
  · next h => rw [Nat.min_eq_left (by omega)]
  · next h => rw [Nat.min_eq_right (by omega)]

/-- Below the saturated length the stated length is right only for an operand of that length. -/
theorem statedLength_ne {bs : List Byte} {n : Nat} (hn : n < 0xFFFFFFFF) (h : bs.length ≠ n) :
    statedLength bs ≠ BitVec.ofNat 32 n := by
  intro hEq
  have hNat := congrArg BitVec.toNat hEq
  rw [statedLength_toNat, BitVec.toNat_ofNat] at hNat
  omega

theorem frontReplaced_getElem {bs : List Byte} (buf : Vector Byte 26) {i : Nat} (hi : i < bs.length) (hi' : i < 26) :
    (frontReplaced bs buf)[i] = bs[i] := by
  simp [frontReplaced, hi]

/-- Only the first 26 bytes of a sequence reach the buffer. -/
theorem frontReplaced_take (bs : List Byte) (buf : Vector Byte 26) :
    frontReplaced (bs.take 26) buf = frontReplaced bs buf := by
  apply Vector.ext
  intro i hi
  simp [frontReplaced]

/-- The state in which the operand stands in IN_BUF and IN_LEN. -/
abbrev presented (s : State) (bs : List Byte) : State :=
  { s with inBuf := frontReplaced bs s.inBuf, inLen := statedLength bs }

theorem run_presentOperand {s : State} {bs : List Byte} {rest : List HostEvent}
    (hp : s.pending = presentOperand bs ++ rest) :
    Host.Core.run core (min bs.length 26 + 4) s = .next { presented s bs with pending := rest } := by
  have hLen : (bs.take 26).length = min bs.length 26 := by rw [List.length_take, Nat.min_comm]
  have hRun := run_wrBuf_wrLen (bs := bs.take 26) (by omega) (hp.trans (List.append_assoc _ _ _))
  rwa [hLen, frontReplaced_take] at hRun

/-- Settles O50: the buffer writes leave the front of IN_BUF, and the length writes the stated length. -/
theorem presentedOperandIsInTheInputs : Obligations.PresentedOperandIsInTheInputs := by
  intro s bs rest hp
  rw [run_presentOperand hp, presented, statedLength_eq_ite]
  rfl

/-! ### A command after the inputs (R163, R185, R245) -/

theorem run_one (s : State) : Host.Core.run core 1 s = step s := by
  obtain ⟨t, hStep⟩ := everyStepAnswersANextState s
  rw [run_succ 0 hStep, hStep]
  rfl

/-- A command behind a run of writes. -/
theorem run_then_command {s u : State} {n : Nat} {c : Byte} {i : Instr} {rest : List HostEvent}
    (hRun : Host.Core.run core n s = .next { u with pending := .wr 0x00#8 c :: rest }) (hDecode : decode c = .ok i) :
    Host.Core.run core (n + 1) s = exec i (taking u c rest) := by
  rw [run_add _ _ hRun, run_one, step_of_decode_eq_ok rfl hDecode]

section Presented

variable {s : State} {bs : List Byte} {rest : List HostEvent}

/-- ENCODE.blob after an operand: LENGTH, or the encoded text of the operand. -/
theorem encode_after_presentOperand (hp : s.pending = presentOperand bs ++ .wr 0x00#8 0x43#8 :: rest) :
    ∃ t, Host.Core.run core (min bs.length 26 + 5) s = .next t ∧
      (bs.length ≠ 16 → t.status = 0x0B#8 ∧ t.outLen = 0#8 ∧ t.outBuf = clearBuf) ∧
      (∀ b : Vector Byte 16, bs = b.toList → t.status = 0x01#8 ∧ t.outLen = 26#8 ∧ t.outBuf = encode26 b) := by
  have hRun := run_then_command (run_presentOperand hp) (i := .encode .blob) rfl
  refine ⟨_, hRun.trans (exec_eq_commit _ _), fun hLen => ?wrongLength, fun b hb => ?value⟩
  case wrongLength =>
    rw [← eq_commit_of_exec (exec_of_length_wrong rfl rfl (statedLength_ne (by decide) hLen))]
    exact ⟨rfl, rfl, rfl⟩
  case value =>
    subst hb
    have hOperand : operand16 (taking (presented s b.toList) 0x43#8 rest) = b := Vector.ext fun j hj =>
      (firstBytes_byte 16 (by decide) _ ⟨j, hj⟩).trans (frontReplaced_getElem _ (by simpa using hj) (by omega))
    have hLen : statedLength b.toList = 16#32 := by simp [statedLength]
    rw [← eq_commit_of_exec (exec_encode_of_inLen hLen), hOperand]
    exact ⟨rfl, rfl, padBuf_toList _⟩

/-- DECODE.text after an operand: LENGTH, CONTENT, or the decoded bytes of the operand. -/
theorem decode_after_presentOperand (hp : s.pending = presentOperand bs ++ .wr 0x00#8 0x34#8 :: rest) :
    ∃ t, Host.Core.run core (min bs.length 26 + 5) s = .next t ∧
      (bs.length ≠ 26 → t.status = 0x0B#8 ∧ t.outLen = 0#8 ∧ t.outBuf = clearBuf) ∧
      (∀ txt : Vector Byte 26, bs = txt.toList →
        (decode26 s.params txt = none → t.status = 0x0F#8 ∧ t.outLen = 0#8 ∧ t.outBuf = clearBuf) ∧
        (∀ b, decode26 s.params txt = some b →
          t.status = 0x01#8 ∧ t.outLen = 16#8 ∧ t.outBuf = bufOf (b.toList.map BitVec.toNat))) := by
  have hRun := run_then_command (run_presentOperand hp) (i := .decode .text) rfl
  refine ⟨_, hRun.trans (exec_eq_commit _ _), fun hLen => ?wrongLength, fun txt htxt => ?_⟩
  case wrongLength =>
    rw [← eq_commit_of_exec (exec_of_length_wrong rfl rfl (statedLength_ne (by decide) hLen))]
    exact ⟨rfl, rfl, rfl⟩
  subst htxt
  have hText : frontReplaced txt.toList s.inBuf = txt := Vector.ext fun j hj =>
    frontReplaced_getElem _ (by simpa using hj) hj
  have hLen : statedLength txt.toList = 26#32 := by simp [statedLength]
  refine ⟨fun hNone => ?content, fun b hSome => ?value⟩
  case content =>
    rw [← hText, decode26_eq_none_iff] at hNone
    have hFails : contentFails (taking (presented s txt.toList) 0x34#8 rest) := hNone
    rw [← eq_commit_of_exec (exec_of_outcomeOf_eq_error ((outcomeOf_eq_content_iff _ _).mpr ⟨rfl, hLen, hFails⟩))]
    exact ⟨rfl, rfl, rfl⟩
  case value =>
    rw [← hText] at hSome
    have hDecode : decode26 (taking (presented s txt.toList) 0x34#8 rest).params
        (taking (presented s txt.toList) 0x34#8 rest).inBuf = some b := hSome
    rw [← eq_commit_of_exec (exec_decode_of_decode26_eq_some hLen hDecode)]
    exact ⟨rfl, rfl, padBuf_eq_bufOf _⟩

end Presented

/-- Settles O51: the presented operand is the operand of the command behind it. -/
theorem blockComputesTheCodecOnHostValues : Obligations.BlockComputesTheCodecOnHostValues := fun _ _ _ =>
  ⟨encode_after_presentOperand, decode_after_presentOperand⟩

/-- A well-typed command that requires a length gives LENGTH when the stated operand is longer than 26 bytes. -/
theorem exec_of_long_operand {i : Instr} {u : State} {bs : List Byte} (hLong : 26 < bs.length)
    (hi : i = .unpack .blob ∨ i = .encode .blob ∨ i = .decode .text ∨ i = .extract .blob)
    (hLen : u.inLen = statedLength bs) : exec i u = .next (cleared u 0x0B#8) := by
  have hNe : ∀ n ≤ 26, u.inLen.toNat ≠ n := by
    intro n hn
    rw [hLen, statedLength_toNat]
    omega
  apply exec_of_outcomeOf_eq_error (cls := .length)
  rw [outcomeOf_eq_length_iff]
  rcases hi with rfl | rfl | rfl | rfl <;> exact ⟨rfl, _, rfl, hNe _ (by decide)⟩

/-- Settles O54: in either form IN_LEN is the stated length, which no command requires. -/
theorem longOperandGivesLengthInEitherForm : Obligations.LongOperandGivesLengthInEitherForm := by
  intro s i bs rest hLong hi
  dsimp only
  rw [← statedLength_eq_ite]
  refine ⟨fun hp => ?_, fun hp => ?_⟩
  · have hRun := run_then_command (run_presentOperand hp) (decode_encode i)
    have hBuf : frontReplaced bs s.inBuf = Vector.ofFn fun k => bs.getD k.val 0#8 := by
      apply Vector.ext
      intro k hk
      rw [frontReplaced_getElem _ (by omega) hk, Vector.getElem_ofFn, List.getD_eq_getElem _ _ (by omega)]
    rw [Nat.min_eq_right (by omega), exec_of_long_operand hLong hi rfl, presented, hBuf] at hRun
    exact hRun
  · have hRun := run_then_command (u := { s with inLen := statedLength bs }) (run_wrLen (s := s) hp) (decode_encode i)
    rw [exec_of_long_operand hLong hi rfl] at hRun
    exact hRun

end Sys2Proof.Machine
end
